-- ==== Sys2Proof/Word.lean ====
section
/-! DEFINITION. The data the rules speak of: bytes, words, frames, samples, commands, events, scan states. -/

namespace Sys2Proof

/-- A byte, 0..255 (R10). -/
abbrev Byte := BitVec 8

/-- A word, 0..2^32 - 1 (R10): the pattern of one binary32 field. -/
abbrev Word := BitVec 32

/-- A RawFrame: a sequence of exactly fifteen bytes, byte 0 the first received (R11, R15, R61). The length
is carried by the type, so the "frame length ≠ 15" cause of StructuralError cannot occur (R119). -/
structure Frame where
  bytes : List Byte
  length_eq : bytes.length = 15
deriving DecidableEq, Repr

/-- `frame[i]` (R11). -/
def Frame.byte (f : Frame) (i : Fin 15) : Byte :=
  f.bytes[i.val]'(by rw [f.length_eq]; exact i.isLt)

/-- The frame made of a byte sequence, where the sequence has fifteen bytes. -/
def Frame.ofList? (l : List Byte) : Option Frame :=
  if h : l.length = 15 then some ⟨l, h⟩ else none

/-- A Sample: the three 32-bit patterns x, y, z (R122). -/
structure Sample where
  x : Word
  y : Word
  z : Word
deriving DecidableEq, Repr

/-- The three states of the FrameAssembler (R21, R32). -/
inductive ScanState where
  | idle
  | matched
  | collecting
deriving DecidableEq, Repr

/-- The tag of a command (R69, R70). -/
inductive Tag where
  | stop
  | forward
  | backward
  | left
  | right
deriving DecidableEq, Repr

/-- A Command: a tagged variant, each but Stop carrying the pair of duty values (left side, right side)
(R69, R70). -/
inductive Command where
  | stop
  | forward (dutyL dutyR : Nat)
  | backward (dutyL dutyR : Nat)
  | left (dutyL dutyR : Nat)
  | right (dutyL dutyR : Nat)
deriving DecidableEq, Repr

/-- The tag of a command (R70). -/
def Command.tag : Command → Tag
  | .stop => .stop
  | .forward _ _ => .forward
  | .backward _ _ => .backward
  | .left _ _ => .left
  | .right _ _ => .right

/-- The diagnostic events (R71, R176). -/
inductive DiagEvent where
  | struct
  | cksum
  | cmd (tag : Tag)
deriving DecidableEq, Repr

/-- The outcome of VALIDATE (R110). -/
inductive Verdict where
  | valid
  | structuralError
  | checksumError
deriving DecidableEq, Repr

/-- The two exceptions of the block (R170, R171). StarvationCondition is not raised at all (R175). -/
inductive FrameException where
  | structural
  | checksum
deriving DecidableEq, Repr

/-- The four classes of a binary32 value against the threshold (R132). -/
inductive AxisClass where
  | pos
  | neg
  | within
  | unordered
deriving DecidableEq, Repr

end Sys2Proof
end

