-- ==== Sys2Proof/Config.lean ====
section
/-! DEFINITION. The identity of 00_scope.md R2 and the parameters of R8 and R9. -/

namespace Sys2Proof

/-- The parameters a model carries as configuration fields (R9). They cannot change while the block runs (R29). -/
structure Config where
  /-- `MARKER0`, the first marker byte. -/
  marker0 : Byte
  /-- `MARKER1`, the second marker byte. -/
  marker1 : Byte
  /-- `TMAG`, the smallest 31-bit magnitude pattern whose value is greater than `T` (R133). -/
  tmag : BitVec 31
  /-- `DUTY_L`, the left-side duty of every directional command (R145). -/
  dutyL : Nat
  /-- `DUTY_R`, the right-side duty of every directional command (R145). -/
  dutyR : Nat
  /-- `REEVAL`: in Matched, a mismatching byte equal to `MARKER0` is a marker start (R94, R104). -/
  reeval : Bool
  /-- `HAS_DIAG`: the diagnostic sink is present (R49, R176). -/
  hasDiag : Bool
deriving DecidableEq, Repr

/-- The values this hardware takes (R8). -/
def Config.hw : Config where
  marker0 := 0x21#8
  marker1 := 0x47#8
  tmag := 0x3E4CCCCD#31
  dutyL := 3000
  dutyR := 3000
  reeval := true
  hasDiag := true

/-- What a model records of which hardware it models (R2). There is no part or version number to record. -/
structure Identity where
  /-- The block's name (R1, R2). -/
  name : String
  /-- The repository it originates from. -/
  origin : String
  /-- The one source document, under the id the spec gives it (R3). -/
  document : String
  /-- The parameter set (R8). -/
  parameters : Config
deriving DecidableEq, Repr

/-- The identity of this hardware (R2). -/
def Identity.hw : Identity where
  name := "BGCMS CORE"
  origin := "Nainikas/BLE-Based_Gyroscope_Controlled_Motor_System"
  document := "the source"
  parameters := Config.hw

/-- `FRAME_LEN` (R8, fixed by R9). -/
def frameLen : Nat := 15
/-- `OFF_X` (R8, fixed by R9). -/
def offX : Nat := 2
/-- `OFF_Y` (R8, fixed by R9). -/
def offY : Nat := 6
/-- `OFF_Z` (R8, fixed by R9). -/
def offZ : Nat := 10
/-- `OFF_CK` (R8, fixed by R9): where A.LAST writes. -/
def offCk : Nat := 14
/-- `CK_SPAN` (R8, fixed by R9): the number of leading bytes the checksum covers. -/
def ckSpan : Nat := 14
/-- `DUTY_W` (R8). -/
def dutyW : Nat := 16
/-- `TAG_W` (R8). -/
def tagW : Nat := 3
/-- `HAS_TIMEOUT` (R8, R175): false, so a read of ByteSource waits without limit. The waiting arm of
`Machine.pipelineStep` is what false means; no rule gives true a behaviour. -/
def hasTimeout : Bool := false

/-- The threshold `T`, the exact real number 1/5 (R8, R131). -/
def threshold : ℚ := 1 / 5

/-- The infinity pattern of the 31 magnitude bits: patterns above it are NaN (R65, R132). -/
def infMag : BitVec 31 := 0x7F800000#31

/-- The legal parameter sets (R9). The bounds on `tmag` are what `T > 0` with `T` a real number says of the
smallest pattern above it; they keep the four classes of R132 exclusive.
DEDUCED: log entry 9. Safe: outside these sets no claim is made. -/
abbrev Config.legal (c : Config) : Prop :=
  c.marker0 ≠ c.marker1 ∧ c.dutyL < 2 ^ 16 ∧ c.dutyR < 2 ^ 16 ∧ 0#31 < c.tmag ∧ c.tmag ≤ infMag

end Sys2Proof
end

