-- ==== Sys2Proof/Syntax.lean ====
section
/-! DEFINITION. The operations of the block: one constructor per row of spec/opcode_table.json, in the table's order. -/

namespace Sys2Proof

/-- The 27 rows. An operand is what the row leaves free: the byte of a BYTE row with mask 0, the frame of a
FRAME row, the sample of a SAMPLE row. Rows whose every bit is fixed have none (R66, R68, R70, R71). -/
inductive Instr where
  /-- Idle, the byte is `MARKER0` (R92). -/
  | aSync0
  /-- Idle, any other byte (R91). -/
  | aDrop (b : Byte)
  /-- Matched, the byte is `MARKER1` (R93). -/
  | aSync1
  /-- Matched, the byte is `MARKER0`, with `REEVAL` (R94). -/
  | aResync
  /-- Matched, any other byte (R95). -/
  | aMiss (b : Byte)
  /-- Collecting, `len` < 14 (R96). -/
  | aAppend (b : Byte)
  /-- Collecting, `len` = 14 (R97). -/
  | aLast (b : Byte)
  /-- A completed frame with a bad marker (R111, R173). -/
  | fStruct (f : Frame)
  /-- A completed frame with a good marker and a bad checksum (R113, R174). -/
  | fCksum (f : Frame)
  /-- A completed frame that passes both checks (R114). -/
  | fValid (f : Frame)
  /-- `classify(y) = Pos` (R134). -/
  | mFwd (smp : Sample)
  /-- `classify(y) = Neg` (R135). -/
  | mBwd (smp : Sample)
  /-- `classify(x) = Pos` (R136). -/
  | mRight (smp : Sample)
  /-- `classify(x) = Neg` (R137). -/
  | mLeft (smp : Sample)
  /-- Both axes Within (R138). -/
  | mStop (smp : Sample)
  /-- The command word Stop (R70). -/
  | cmdStop
  /-- The command word Forward (R70). -/
  | cmdForward
  /-- The command word Backward (R70). -/
  | cmdBackward
  /-- The command word Left (R70). -/
  | cmdLeft
  /-- The command word Right (R70). -/
  | cmdRight
  /-- The event of a frame rejected for its marker (R71, R176). -/
  | eStruct
  /-- The event of a frame rejected for its checksum (R71, R176). -/
  | eCksum
  /-- The event of an emitted Stop (R71, R176). -/
  | eCmdStop
  /-- The event of an emitted Forward (R71, R176). -/
  | eCmdForward
  /-- The event of an emitted Backward (R71, R176). -/
  | eCmdBackward
  /-- The event of an emitted Left (R71, R176). -/
  | eCmdLeft
  /-- The event of an emitted Right (R71, R176). -/
  | eCmdRight
deriving DecidableEq, Repr

end Sys2Proof
end

