-- ==== Sys2Proof/Machine/Operands.lean ====
section
/-! DEFINITION. The operand forms: byte order, checksum and VALIDATE over a frame, DECODE, the bit numbering of frames and samples. -/

namespace Sys2Proof.Machine

/-- A byte sequence read as an unsigned integer, least significant byte first: the sum over k of
`l[k] << (8·k)` (R12, R43). -/
def leNat : List Byte → Nat
  | [] => 0
  | b :: l => b.toNat + 256 * leNat l

/-- `MemRead(off, n)` of a frame (R12); the rules use it with `off + n ≤ 15` only. -/
def memRead (f : Frame) (off n : Nat) : Nat :=
  leNat ((f.bytes.drop off).take n)

/-- The word of four bytes at an offset, each byte zero-extended (R63, R121). -/
def fieldWord (f : Frame) (off : Nat) : Word :=
  BitVec.ofNat 32 (memRead f off 4)

/-- `DECODE` (R120). Total: it does not look at the marker or the checksum (R126). -/
def decodeSampleOf (f : Frame) : Sample where
  x := fieldWord f offX
  y := fieldWord f offY
  z := fieldWord f offZ

/-- The sum of a byte sequence as an unbounded natural number (R115). -/
def byteSum (l : List Byte) : Nat :=
  (l.map BitVec.toNat).sum

/-- `sum8` (R12): the sum modulo 256. -/
def sum8 (l : List Byte) : Byte :=
  BitVec.ofNat 8 (byteSum l)

/-- `CHECKSUM` (R112): the complement of `sum8` within 8 bits. -/
def checksum (l : List Byte) : Byte :=
  ~~~ sum8 l

/-- The bytes the checksum covers: offsets 0 to 13 (R112). -/
def coveredBytes (f : Frame) : List Byte :=
  f.bytes.take ckSpan

/-- Check (a), the marker check (R111). -/
abbrev markerOk (cfg : Config) (f : Frame) : Prop :=
  f.byte 0 = cfg.marker0 ∧ f.byte 1 = cfg.marker1

/-- Check (b), the checksum check (R113). -/
abbrev checksumOk (f : Frame) : Prop :=
  f.byte 14 = checksum (coveredBytes f)

/-- `VALIDATE` (R110): the marker first, then the checksum (R111, R177). -/
def validate (cfg : Config) (f : Frame) : Verdict :=
  if f.byte 0 ≠ cfg.marker0 ∨ f.byte 1 ≠ cfg.marker1 then .structuralError
  else if f.byte 14 ≠ checksum (coveredBytes f) then .checksumError
  else .valid

/-- The four bytes of a word in stream order, least significant first (R43, R84). -/
def wordBytes (w : Word) : List Byte :=
  [w.extractLsb' 0 8, w.extractLsb' 8 8, w.extractLsb' 16 8, w.extractLsb' 24 8]

/-- The 120-bit word of a frame: bit `8·i + j` is bit j of `frame[i]` (R62). -/
def frameBits (f : Frame) : BitVec 120 :=
  BitVec.ofNat 120 (leNat f.bytes)

/-- Byte i of a 120-bit frame word (R62). -/
def frameBitsByte (v : BitVec 120) (i : Nat) : Byte :=
  v.extractLsb' (8 * i) 8

/-- The frame of a 120-bit word (R62). -/
def frameOfBits (v : BitVec 120) : Frame :=
  ⟨[frameBitsByte v 0, frameBitsByte v 1, frameBitsByte v 2, frameBitsByte v 3, frameBitsByte v 4,
    frameBitsByte v 5, frameBitsByte v 6, frameBitsByte v 7, frameBitsByte v 8, frameBitsByte v 9,
    frameBitsByte v 10, frameBitsByte v 11, frameBitsByte v 12, frameBitsByte v 13,
    frameBitsByte v 14], rfl⟩

/-- The 96 bits of a sample: x in bits 31:0, y in 63:32, z in 95:64, the order of the frame's fields.
DESIGN CHOICE: log entry 13. Safe: a numbering only, no operation reads it. -/
def sampleBits (smp : Sample) : BitVec 96 :=
  smp.z ++ smp.y ++ smp.x

/-- The sample of 96 bits, in the numbering of `sampleBits`. -/
def sampleOfBits (v : BitVec 96) : Sample where
  x := v.extractLsb' 0 32
  y := v.extractLsb' 32 32
  z := v.extractLsb' 64 32

end Sys2Proof.Machine
end

