-- ==== Sys2Proof/Machine/Flags.lean ====
section
/-! DEFINITION. The block has no flags (R28). This file holds what stands nearest: the transient classes of a value
against the threshold, on bits (R132) and on numbers (R123, R131), and MAP, which reads them (R130). -/

namespace Sys2Proof.Machine

/-- The sign bit `w[31]` (R65). -/
def signBit (w : Word) : Bool := w.getLsbD 31

/-- The magnitude pattern `w[30:0]` (R65). -/
def magBits (w : Word) : BitVec 31 := w.extractLsb' 0 31

/-- `classify` (R132); the comparisons are of unsigned 31-bit integers. -/
def classify (cfg : Config) (w : Word) : AxisClass :=
  if infMag < magBits w then .unordered
  else if magBits w < cfg.tmag then .within
  else if signBit w then .neg
  else .pos

/-- The biased exponent field `w[30:23]` (R65). -/
def expBits (w : Word) : Nat := (w.extractLsb' 23 8).toNat

/-- The fraction field `w[22:0]` (R65). -/
def fracBits (w : Word) : Nat := (w.extractLsb' 0 23).toNat

/-- What a word stands for (R65, R123): a finite value is `(−1)^neg · sig · 2^exp`, exactly. -/
inductive F32 where
  | nan
  | inf (neg : Bool)
  | finite (neg : Bool) (sig : Nat) (exp : Int)
deriving DecidableEq, Repr

/-- `f32(w)` (R123). -/
def f32 (w : Word) : F32 :=
  if expBits w = 255 then
    if fracBits w = 0 then .inf (signBit w) else .nan
  else if expBits w = 0 then .finite (signBit w) (fracBits w) (-149)
  else .finite (signBit w) (2 ^ 23 + fracBits w) ((expBits w : Int) - 150)

/-- The rational number `(−1)^neg · sig · 2^exp` (R123). -/
def finiteValue (neg : Bool) (sig : Nat) (exp : Int) : ℚ :=
  (if neg then -1 else 1) * sig * (2 : ℚ) ^ exp

/-- "v > T" on numbers extended with the infinities; false for NaN (R131). -/
def aboveThreshold : F32 → Prop
  | .nan => False
  | .inf neg => neg = false
  | .finite neg sig exp => threshold < finiteValue neg sig exp

/-- "v < −T" on numbers extended with the infinities; false for NaN (R131). -/
def belowThreshold : F32 → Prop
  | .nan => False
  | .inf neg => neg = true
  | .finite neg sig exp => finiteValue neg sig exp < -threshold

/-- "|v| ≤ T" on numbers extended with the infinities; false for NaN (R131). -/
def withinThreshold : F32 → Prop
  | .nan => False
  | .inf _ => False
  | .finite neg sig exp => |finiteValue neg sig exp| ≤ threshold

/-- `Forward(DUTY_L, DUTY_R)` (R134). -/
def forwardCmd (cfg : Config) : Command := .forward cfg.dutyL cfg.dutyR
/-- `Backward(DUTY_L, DUTY_R)` (R135). -/
def backwardCmd (cfg : Config) : Command := .backward cfg.dutyL cfg.dutyR
/-- `Right(DUTY_L, DUTY_R)` (R136). -/
def rightCmd (cfg : Config) : Command := .right cfg.dutyL cfg.dutyR
/-- `Left(DUTY_L, DUTY_R)` (R137). -/
def leftCmd (cfg : Config) : Command := .left cfg.dutyL cfg.dutyR

/-- `MAP` (R130) as the function of R146: the five tests in order, each that holds appending its command. It
does not read z (R144). -/
def mapCommands (cfg : Config) (smp : Sample) : List Command :=
  let cy := classify cfg smp.y
  let cx := classify cfg smp.x
  (if cy = .pos then [forwardCmd cfg] else []) ++
  (if cy = .neg then [backwardCmd cfg] else []) ++
  (if cx = .pos then [rightCmd cfg] else []) ++
  (if cx = .neg then [leftCmd cfg] else []) ++
  (if cx = .within ∧ cy = .within then [.stop] else [])

end Sys2Proof.Machine
end

