-- ==== Sys2Proof/WellFormed.lean ====
section
/-! DEFINITION. When an operation with its operands is one the tables can select: the row's condition, parameter by parameter. -/

namespace Sys2Proof

open Machine

/-- The condition of the operation's row of R66 (on the byte), R68 (on the frame), R134 to R138 (on the
sample); a diagnostic event exists only with `HAS_DIAG` (R176), A.RESYNC only with `REEVAL` (R94). -/
def Instr.wellFormed (cfg : Config) : Instr → Bool
  | .aSync0 => true
  | .aDrop b => decide (b ≠ cfg.marker0)
  | .aSync1 => true
  | .aResync => cfg.reeval
  | .aMiss b => decide (b ≠ cfg.marker1 ∧ (b ≠ cfg.marker0 ∨ cfg.reeval = false))
  | .aAppend _ => true
  | .aLast _ => true
  | .fStruct f => decide (validate cfg f = .structuralError)
  | .fCksum f => decide (validate cfg f = .checksumError)
  | .fValid f => decide (validate cfg f = .valid)
  | .mFwd smp => decide (classify cfg smp.y = .pos)
  | .mBwd smp => decide (classify cfg smp.y = .neg)
  | .mRight smp => decide (classify cfg smp.x = .pos)
  | .mLeft smp => decide (classify cfg smp.x = .neg)
  | .mStop smp => decide (classify cfg smp.x = .within ∧ classify cfg smp.y = .within)
  | .cmdStop => true
  | .cmdForward => true
  | .cmdBackward => true
  | .cmdLeft => true
  | .cmdRight => true
  | .eStruct => cfg.hasDiag
  | .eCksum => cfg.hasDiag
  | .eCmdStop => cfg.hasDiag
  | .eCmdForward => cfg.hasDiag
  | .eCmdBackward => cfg.hasDiag
  | .eCmdLeft => cfg.hasDiag
  | .eCmdRight => cfg.hasDiag

end Sys2Proof
end

