-- ==== Sys2Proof/Decode.lean ====
section
/-! DEFINITION. The decoders of R66, R68, R69 to R71 (total, rejecting by name), the encoder from the same tables, and the
host's context-free view of the table (`decodeTableWord`). -/

namespace Sys2Proof

open Machine

/-- The formats (R60), with the label SAMPLE of R68. -/
inductive Format where
  | byte
  | frame
  | sample
  | cmd
  | diag
deriving DecidableEq, Repr

/-- The word of an operation in its format (R60, R62, R69, R71). -/
inductive Code where
  | byte (b : Byte)
  | frame (bits : BitVec 120)
  | sample (bits : BitVec 96)
  | cmd (bits : BitVec 35)
  | diag (bits : BitVec 7)
deriving DecidableEq, Repr

/-- The format of a word. -/
def Code.format : Code → Format
  | .byte _ => .byte
  | .frame _ => .frame
  | .sample _ => .sample
  | .cmd _ => .cmd
  | .diag _ => .diag

/-- The format of an operation's row. -/
def Instr.format : Instr → Format
  | .aSync0 | .aDrop _ | .aSync1 | .aResync | .aMiss _ | .aAppend _ | .aLast _ => .byte
  | .fStruct _ | .fCksum _ | .fValid _ => .frame
  | .mFwd _ | .mBwd _ | .mRight _ | .mLeft _ | .mStop _ => .sample
  | .cmdStop | .cmdForward | .cmdBackward | .cmdLeft | .cmdRight => .cmd
  | .eStruct | .eCksum | .eCmdStop | .eCmdForward | .eCmdBackward | .eCmdLeft | .eCmdRight => .diag

/-- Why a word is no row of the table. Only output words can be rejected: every byte and every frame selects
an operation (R72). -/
inductive DecodeError where
  /-- A command word with a tag 5, 6 or 7, never produced (R73). -/
  | reservedTag
  /-- A command word whose duty fields are not the ones the block produces (R70). -/
  | foreignDuty
  /-- An event word with a code 0 or 4 to 15, never produced (R73). -/
  | reservedCode
  /-- An event word whose `arg` is not one the block produces (R71). -/
  | foreignArg
  /-- An event word when `HAS_DIAG` is false: no event exists (R176). -/
  | noDiagSink
deriving DecidableEq, Repr

/-- Decode of a BYTE against the scan position (R66, R90). Total: no byte is illegal in any state (R72). -/
def decodeByte (cfg : Config) (st : ScanState) (len : Nat) (b : Byte) : Instr :=
  match st with
  | .idle => if b = cfg.marker0 then .aSync0 else .aDrop b
  | .matched =>
    if b = cfg.marker1 then .aSync1
    else if cfg.reeval = true ∧ b = cfg.marker0 then .aResync
    else .aMiss b
  | .collecting => if len < 14 then .aAppend b else .aLast b

/-- Decode of a FRAME: exactly one of three classes (R68). -/
def decodeFrame (cfg : Config) (f : Frame) : Instr :=
  match validate cfg f with
  | .structuralError => .fStruct f
  | .checksumError => .fCksum f
  | .valid => .fValid f

/-- Decode of a SAMPLE: the emission rules it selects, in the order MAP tests them (R68, R130). A sample may
select two rows, or none when an axis is NaN (R139, R141). -/
def decodeSample (cfg : Config) (smp : Sample) : List Instr :=
  (if classify cfg smp.y = .pos then [Instr.mFwd smp] else []) ++
  (if classify cfg smp.y = .neg then [Instr.mBwd smp] else []) ++
  (if classify cfg smp.x = .pos then [Instr.mRight smp] else []) ++
  (if classify cfg smp.x = .neg then [Instr.mLeft smp] else []) ++
  (if classify cfg smp.x = .within ∧ classify cfg smp.y = .within then [Instr.mStop smp] else [])

/-- The numeric code of a tag (R70). -/
def tagCode : Tag → BitVec 3
  | .stop => 0#3
  | .forward => 1#3
  | .backward => 2#3
  | .left => 3#3
  | .right => 4#3

/-- The 35 bits of a command word: tag 34:32, duty_l 31:16, duty_r 15:0 (R69). -/
def packCommand (tag : BitVec 3) (dutyL dutyR : BitVec 16) : BitVec 35 :=
  tag ++ dutyL ++ dutyR

/-- The word of a command; Stop's duty fields are 0 (R69, R70). -/
def encodeCommand : Command → BitVec 35
  | .stop => packCommand (tagCode .stop) 0#16 0#16
  | .forward l r => packCommand (tagCode .forward) (BitVec.ofNat 16 l) (BitVec.ofNat 16 r)
  | .backward l r => packCommand (tagCode .backward) (BitVec.ofNat 16 l) (BitVec.ofNat 16 r)
  | .left l r => packCommand (tagCode .left) (BitVec.ofNat 16 l) (BitVec.ofNat 16 r)
  | .right l r => packCommand (tagCode .right) (BitVec.ofNat 16 l) (BitVec.ofNat 16 r)

/-- The 7-bit word of an event: code 6:3, arg 2:0 (R71). -/
def encodeEvent : DiagEvent → BitVec 7
  | .struct => 1#4 ++ 0#3
  | .cksum => 2#4 ++ 0#3
  | .cmd t => 3#4 ++ tagCode t

/-- Decode of a command word, as its receiver reads it (R69, R70, R73). -/
def decodeCommandWord (cfg : Config) (w : BitVec 35) : Except DecodeError Instr :=
  let tag := w.extractLsb' 32 3
  let dutyL := w.extractLsb' 16 16
  let dutyR := w.extractLsb' 0 16
  if tag = 0#3 then (if dutyL = 0#16 ∧ dutyR = 0#16 then .ok .cmdStop else .error .foreignDuty)
  else if 4#3 < tag then .error .reservedTag
  else if ¬(dutyL = BitVec.ofNat 16 cfg.dutyL ∧ dutyR = BitVec.ofNat 16 cfg.dutyR) then .error .foreignDuty
  else if tag = 1#3 then .ok .cmdForward
  else if tag = 2#3 then .ok .cmdBackward
  else if tag = 3#3 then .ok .cmdLeft
  else .ok .cmdRight

/-- Decode of an event word, as its receiver reads it (R71, R73, R176). -/
def decodeEventWord (cfg : Config) (w : BitVec 7) : Except DecodeError Instr :=
  let code := w.extractLsb' 3 4
  let arg := w.extractLsb' 0 3
  if cfg.hasDiag = false then .error .noDiagSink
  else if code = 1#4 then (if arg = 0#3 then .ok .eStruct else .error .foreignArg)
  else if code = 2#4 then (if arg = 0#3 then .ok .eCksum else .error .foreignArg)
  else if code = 3#4 then
    (if arg = 0#3 then .ok .eCmdStop
     else if arg = 1#3 then .ok .eCmdForward
     else if arg = 2#3 then .ok .eCmdBackward
     else if arg = 3#3 then .ok .eCmdLeft
     else if arg = 4#3 then .ok .eCmdRight
     else .error .foreignArg)
  else .error .reservedCode

/-- One decoder over all formats, at a scan position: the rows a word selects, or the name of its rejection. -/
def decode (cfg : Config) (st : ScanState) (len : Nat) : Code → Except DecodeError (List Instr)
  | .byte b => .ok [decodeByte cfg st len b]
  | .frame v => .ok [decodeFrame cfg (frameOfBits v)]
  | .sample v => .ok (decodeSample cfg (sampleOfBits v))
  | .cmd w => (decodeCommandWord cfg w).map (fun i => [i])
  | .diag w => (decodeEventWord cfg w).map (fun i => [i])

/-- The scan positions a row applies in: the table's `context` (R66). Rows of the other formats have none. -/
def Instr.admits : Instr → ScanState → Nat → Bool
  | .aSync0, st, len => decide (st = .idle ∧ len = 0)
  | .aDrop _, st, len => decide (st = .idle ∧ len = 0)
  | .aSync1, st, len => decide (st = .matched ∧ len = 1)
  | .aResync, st, len => decide (st = .matched ∧ len = 1)
  | .aMiss _, st, len => decide (st = .matched ∧ len = 1)
  | .aAppend _, st, len => decide (st = .collecting ∧ 2 ≤ len ∧ len ≤ 13)
  | .aLast _, st, len => decide (st = .collecting ∧ len = 14)
  | _, _, _ => true

/-- The word of an operation, from the tables of R66, R62, R70, R71. -/
def encode (cfg : Config) : Instr → Code
  | .aSync0 => .byte cfg.marker0
  | .aDrop b => .byte b
  | .aSync1 => .byte cfg.marker1
  | .aResync => .byte cfg.marker0
  | .aMiss b => .byte b
  | .aAppend b => .byte b
  | .aLast b => .byte b
  | .fStruct f => .frame (frameBits f)
  | .fCksum f => .frame (frameBits f)
  | .fValid f => .frame (frameBits f)
  | .mFwd smp => .sample (sampleBits smp)
  | .mBwd smp => .sample (sampleBits smp)
  | .mRight smp => .sample (sampleBits smp)
  | .mLeft smp => .sample (sampleBits smp)
  | .mStop smp => .sample (sampleBits smp)
  | .cmdStop => .cmd (encodeCommand .stop)
  | .cmdForward => .cmd (encodeCommand (forwardCmd cfg))
  | .cmdBackward => .cmd (encodeCommand (backwardCmd cfg))
  | .cmdLeft => .cmd (encodeCommand (leftCmd cfg))
  | .cmdRight => .cmd (encodeCommand (rightCmd cfg))
  | .eStruct => .diag (encodeEvent .struct)
  | .eCksum => .diag (encodeEvent .cksum)
  | .eCmdStop => .diag (encodeEvent (.cmd .stop))
  | .eCmdForward => .diag (encodeEvent (.cmd .forward))
  | .eCmdBackward => .diag (encodeEvent (.cmd .backward))
  | .eCmdLeft => .diag (encodeEvent (.cmd .left))
  | .eCmdRight => .diag (encodeEvent (.cmd .right))

/-- The first row of a successful decode, if any. -/
def firstRow : Except DecodeError (List Instr) → Option Instr
  | .ok (i :: _) => some i
  | _ => none

/-- An 8-bit word without a scan position: the rows with every bit fixed first (the seven event words,
`MARKER0` in Idle, `MARKER1` in Matched), then the catch-all row of Idle.
DESIGN CHOICE: log entry 14. Safe: only the host's probe uses it; the block decodes with `decodeByte`. -/
def decodeTableByte (w : Nat) : Option Instr :=
  match decodeEventWord Config.hw (BitVec.ofNat 7 w) with
  | .ok i => if w < 128 then some i else some (.aDrop (BitVec.ofNat 8 w))
  | .error _ =>
    if BitVec.ofNat 8 w = Config.hw.marker1 then some (decodeByte Config.hw .matched 1 (BitVec.ofNat 8 w))
    else some (decodeByte Config.hw .idle 0 (BitVec.ofNat 8 w))

/-- The row of a word whose width names its format: 7 or 8 bits an event or a byte, 16 or 120 a frame, 32 or
96 a sample, 35 or 40 a command; bits above `nbits` are 0. The word alone does not say the scan position, so
the row given is one the table lists for that word; log entry 14. -/
def decodeTableWord (nbits w : Nat) : Option Instr :=
  if w < 2 ^ nbits then
    match nbits with
    | 7 => firstRow (decode Config.hw .idle 0 (.diag (BitVec.ofNat 7 w)))
    | 8 => decodeTableByte w
    | 16 => firstRow (decode Config.hw .idle 0 (.frame (BitVec.ofNat 120 w)))
    | 120 => firstRow (decode Config.hw .idle 0 (.frame (BitVec.ofNat 120 w)))
    | 32 => firstRow (decode Config.hw .idle 0 (.sample (BitVec.ofNat 96 w)))
    | 96 => firstRow (decode Config.hw .idle 0 (.sample (BitVec.ofNat 96 w)))
    | 35 => firstRow (decode Config.hw .idle 0 (.cmd (BitVec.ofNat 35 w)))
    | 40 => if w < 2 ^ 35 then firstRow (decode Config.hw .idle 0 (.cmd (BitVec.ofNat 35 w))) else none
    | _ => none
  else none

end Sys2Proof
end

