-- ==== Sys2Proof/Machine/State.lean ====
section
/-! DEFINITION. The state of the block, what a step can stop on, and the state after reset. -/

namespace Sys2Proof.Machine

/-- The frame buffer: (offset, byte) cells, offsets strictly rising, an unlisted offset holding no value
(R22, R31: no stale bytes, no byte at an index ≥ `len`). DESIGN CHOICE on the form: log entry 5. Safe. -/
abbrev Memory := List Host.Cell

/-- The one canonical form of the buffer: offsets strictly rising and inside 0..14 (R40, R41). -/
def Memory.wf : Memory → Bool
  | [] => true
  | [(a, _)] => decide (a < frameLen)
  | (a, _) :: (b, v) :: m => decide (a < b) && Memory.wf ((b, v) :: m)

/-- What the block holds (first four fields) and the inputs and outputs of its run (the others, R33).
DESIGN CHOICE on holding the run's inputs and outputs here: log entry 1. Safe. -/
structure State where
  /-- The assembler state (R21). -/
  st : ScanState
  /-- The number of valid buffer bytes (R23); with `st` the scan position (R25). -/
  len : Nat
  /-- The frame buffer (R22). -/
  buf : Memory
  /-- Commands not yet handed out: MAP's list until SINK has handed it out (R30, R130, R152). -/
  pend : List Command
  /-- The parameters (R8, R29, R33). -/
  cfg : Config
  /-- The level of the reset input (R190). -/
  rst : Bool
  /-- The bytes ByteSource has not yet delivered (R47). -/
  input : List Byte
  /-- The command trace, oldest first (R13). -/
  cmds : List Command
  /-- The diagnostic trace, oldest first (R13). -/
  diags : List DiagEvent
deriving DecidableEq, Repr

/-- The block has no fault (R172); these two name accesses the rules say no operation makes. -/
inductive Fault where
  /-- Raised by A.APPEND when `len` is 15 or more: an offset outside 0..14 does not exist (R41). Safe: the
  invariants of R24 exclude it. -/
  | noSuchOffset (off : Nat)
  /-- Raised by A.LAST when one of the fifteen bytes has not been received: `buf[i]` is defined only for
  `i < len` (R12). Safe: the invariants of R24 exclude it. -/
  | frameIncomplete
deriving DecidableEq, Repr

/-- What the model declines to give a meaning. -/
inductive Refusal where
  /-- For an operation without a meaning yet; no arm raises it. Safe. -/
  | notModelled (mnemonic : String)
deriving DecidableEq, Repr

/-- What a step or an operation answers. -/
abbrev Result := Host.Outcome State Fault Refusal

/-- The state after reset (R34, R190): Idle, nothing received, nothing pending, both traces empty. The
parameters are this hardware's (R8). The reset input is released and no byte waits at ByteSource: DESIGN
CHOICE, log entries 3 and 12; unsafe. -/
def State.reset : State where
  st := .idle
  len := 0
  buf := []
  pend := []
  cfg := Config.hw
  rst := false
  input := []
  cmds := []
  diags := []

end Sys2Proof.Machine
end

