-- ==== Sys2Proof/Machine/Ops.lean ====
section
/-! DEFINITION. The operations the meanings share: buffer access, the scan position, the two sinks, raising an exception,
MAP and SINK on the state, PROCESS, and the reset event. -/

namespace Sys2Proof.Machine

/-- Go on with the next state, stop where the first part stops. -/
def andThen (o : Result) (f : State → Result) : Result :=
  match o with
  | .next s => f s
  | .fault r => .fault r
  | .refused r => .refused r

/-- Read one byte of the buffer; an offset that holds nothing reads as none (R12, R31). -/
def Memory.read : Memory → Nat → Option Byte
  | [], _ => none
  | (k, v) :: m, a => if k = a then some v else Memory.read m a

/-- Write one byte of the buffer, keeping the offsets rising. -/
def Memory.write : Memory → Nat → Byte → Memory
  | [], a, v => [(a, v)]
  | (k, u) :: m, a, v =>
    if a < k then (a, v) :: (k, u) :: m
    else if a = k then (a, v) :: m
    else (k, u) :: Memory.write m a v

/-- The cells of consecutive bytes from an offset on. -/
def Memory.ofBytes : Nat → List Byte → Memory
  | _, [] => []
  | k, b :: l => (k, b) :: Memory.ofBytes (k + 1) l

/-- `buf[off] <- v` (R12, `MemWrite`); an offset outside 0..14 does not exist (R41).
DEDUCED: log entry 6. Safe. -/
def State.store (off : Nat) (v : Byte) (s : State) : Result :=
  if off < frameLen then .next { s with buf := s.buf.write off v } else .fault (.noSuchOffset off)

/-- `(st, len) <- (q, n)` (R12). -/
def State.setScan (q : ScanState) (n : Nat) (s : State) : State :=
  { s with st := q, len := n }

/-- The buffer reset: `(st, len) <- (Idle, 0)` and no byte is kept (R31, R95, R97). -/
def State.bufferReset (s : State) : State :=
  { s with st := .idle, len := 0, buf := [] }

/-- The fifteen buffer bytes as a frame, where all fifteen are there (R97). -/
def State.bufferFrame? (s : State) : Option Frame :=
  Frame.ofList? ((List.range frameLen).filterMap s.buf.read)

/-- `Apply(c)`: hand a command to CommandSink (R12, R48). -/
def State.applyCmd (c : Command) (s : State) : State :=
  { s with cmds := s.cmds ++ [c] }

/-- `Diag(e)`: hand an event to the diagnostic sink; nothing without `HAS_DIAG` (R12, R49). -/
def State.diag (e : DiagEvent) (s : State) : State :=
  if s.cfg.hasDiag then { s with diags := s.diags ++ [e] } else s

/-- The event of an exception (R171). -/
def exceptionEvent : FrameException → DiagEvent
  | .structural => .struct
  | .checksum => .cksum

/-- Taking an exception (R173, R174, R178): the event, and nothing else is saved or switched; the scan position
is already (Idle, 0). There is no return from it: nothing was entered, and the next byte is scanned in Idle
(R179). -/
def State.raiseException (e : FrameException) (s : State) : State :=
  s.diag (exceptionEvent e)

/-- Append a command to MAP's output list (R130, R134 to R138). -/
def State.emit (c : Command) (s : State) : State :=
  { s with pend := s.pend ++ [c] }

/-- `MAP` on the state: the output list becomes the sample's commands (R130). -/
def State.mapSample (smp : Sample) (s : State) : State :=
  { s with pend := mapCommands s.cfg smp }

/-- One turn of SINK's loop (R152): the command, then its event. -/
def State.handOut (s : State) (c : Command) : State :=
  (s.applyCmd c).diag (.cmd c.tag)

/-- `SINK` (R152): the pending commands are handed out, first to last, and none is left. -/
def State.sink (s : State) : State :=
  s.pend.foldl State.handOut { s with pend := [] }

/-- The Valid arm of PROCESS (R151): DECODE, MAP, SINK. -/
def State.acceptFrame (f : Frame) (s : State) : State :=
  (s.mapSample (decodeSampleOf f)).sink

/-- `PROCESS` (R151). -/
def State.processFrame (f : Frame) (s : State) : State :=
  match validate s.cfg f with
  | .structuralError => s.raiseException .structural
  | .checksumError => s.raiseException .checksum
  | .valid => s.acceptFrame f

/-- What the reset input does (R190, R191): the scan state and the latch as after reset; no byte is read and
nothing is emitted, so the run's inputs and outputs stand. Log entry 12. -/
def State.resetEvent (s : State) : State :=
  { s with st := .idle, len := 0, buf := [], pend := [] }

end Sys2Proof.Machine
end

