-- ==== Sys2Proof/Machine/Assembler.lean ====
section
/-! DEFINITION. The seven byte-step operations (R90 to R97). Each is its rule's pseudocode; which one runs is decoding's
matter, so none checks its own row's condition again (log entry 11). -/

namespace Sys2Proof.Machine

/-- `A.SYNC0` (R92): the byte is `MARKER0`. -/
def execASync0 (s : State) : Result :=
  andThen (s.store 0 s.cfg.marker0) fun t => .next (t.setScan .matched 1)

/-- `A.DROP` (R91): the byte leaves no trace. -/
def execADrop (_b : Byte) (s : State) : Result :=
  .next s

/-- `A.SYNC1` (R93): the byte is `MARKER1`. -/
def execASync1 (s : State) : Result :=
  andThen (s.store 1 s.cfg.marker1) fun t => .next (t.setScan .collecting 2)

/-- `A.RESYNC` (R94): buffer reset, then the byte, which is `MARKER0`, as in Idle. -/
def execAResync (s : State) : Result :=
  andThen (s.bufferReset.store 0 s.cfg.marker0) fun t => .next (t.setScan .matched 1)

/-- `A.MISS` (R95): buffer reset; the byte is discarded. -/
def execAMiss (_b : Byte) (s : State) : Result :=
  .next s.bufferReset

/-- `A.APPEND` (R96): the byte is stored, not inspected. -/
def execAAppend (b : Byte) (s : State) : Result :=
  andThen (s.store s.len b) fun t => .next (t.setScan .collecting (s.len + 1))

/-- `A.LAST` (R97): the fifteenth byte; the frame is taken, the buffer reset, and PROCESS runs on the frame. -/
def execALast (b : Byte) (s : State) : Result :=
  andThen (s.store offCk b) fun t =>
    match t.bufferFrame? with
    | none => .fault .frameIncomplete
    | some f => .next (t.bufferReset.processFrame f)

end Sys2Proof.Machine
end

