-- ==== Sys2Proof/Machine/Commands.lean ====
section
/-! DEFINITION. The five command words (R69, R70): each is handed to CommandSink by `Apply` (R48, R152). -/

namespace Sys2Proof.Machine

/-- `CMD.Stop` (R70). -/
def execCmdStop (s : State) : Result :=
  .next (s.applyCmd .stop)

/-- `CMD.Forward` (R70). -/
def execCmdForward (s : State) : Result :=
  .next (s.applyCmd (forwardCmd s.cfg))

/-- `CMD.Backward` (R70). -/
def execCmdBackward (s : State) : Result :=
  .next (s.applyCmd (backwardCmd s.cfg))

/-- `CMD.Left` (R70). -/
def execCmdLeft (s : State) : Result :=
  .next (s.applyCmd (leftCmd s.cfg))

/-- `CMD.Right` (R70). -/
def execCmdRight (s : State) : Result :=
  .next (s.applyCmd (rightCmd s.cfg))

end Sys2Proof.Machine
end

