-- ==== Sys2Proof/Machine/Events.lean ====
section
/-! DEFINITION. The seven event words (R71): each is handed to the diagnostic sink by `Diag` (R12, R176). -/

namespace Sys2Proof.Machine

/-- `E.STRUCT` (R71, R173). -/
def execEStruct (s : State) : Result :=
  .next (s.diag .struct)

/-- `E.CKSUM` (R71, R174). -/
def execECksum (s : State) : Result :=
  .next (s.diag .cksum)

/-- `E.CMD(Stop)` (R71, R152). -/
def execECmdStop (s : State) : Result :=
  .next (s.diag (.cmd .stop))

/-- `E.CMD(Forward)` (R71, R152). -/
def execECmdForward (s : State) : Result :=
  .next (s.diag (.cmd .forward))

/-- `E.CMD(Backward)` (R71, R152). -/
def execECmdBackward (s : State) : Result :=
  .next (s.diag (.cmd .backward))

/-- `E.CMD(Left)` (R71, R152). -/
def execECmdLeft (s : State) : Result :=
  .next (s.diag (.cmd .left))

/-- `E.CMD(Right)` (R71, R152). -/
def execECmdRight (s : State) : Result :=
  .next (s.diag (.cmd .right))

end Sys2Proof.Machine
end

