-- ==== Sys2Proof/Machine/Mapper.lean ====
section
/-! DEFINITION. The five emission rules (R134 to R138): each appends its command to MAP's output list. -/

namespace Sys2Proof.Machine

/-- `M.FWD` (R134). -/
def execMFwd (_smp : Sample) (s : State) : Result :=
  .next (s.emit (forwardCmd s.cfg))

/-- `M.BWD` (R135). -/
def execMBwd (_smp : Sample) (s : State) : Result :=
  .next (s.emit (backwardCmd s.cfg))

/-- `M.RIGHT` (R136). -/
def execMRight (_smp : Sample) (s : State) : Result :=
  .next (s.emit (rightCmd s.cfg))

/-- `M.LEFT` (R137). -/
def execMLeft (_smp : Sample) (s : State) : Result :=
  .next (s.emit (leftCmd s.cfg))

/-- `M.STOP` (R138). -/
def execMStop (_smp : Sample) (s : State) : Result :=
  .next (s.emit .stop)

end Sys2Proof.Machine
end

