-- ==== Sys2Proof/Machine/Validator.lean ====
section
/-! DEFINITION. The three frame classes (R68): what PROCESS does with a completed frame of each. -/

namespace Sys2Proof.Machine

/-- `F.STRUCT` (R111, R173): StructuralError is raised; the checksum is not looked at. -/
def execFStruct (_f : Frame) (s : State) : Result :=
  .next (s.raiseException .structural)

/-- `F.CKSUM` (R113, R174): ChecksumError is raised. -/
def execFCksum (_f : Frame) (s : State) : Result :=
  .next (s.raiseException .checksum)

/-- `F.VALID` (R114, R151): DECODE, MAP, SINK. -/
def execFValid (f : Frame) (s : State) : Result :=
  .next (s.acceptFrame f)

end Sys2Proof.Machine
end

