-- ==== Sys2Proof/Machine/Dispatch.lean ====
section
/-! DEFINITION. One arm per operation, each one call of its meaning. -/

namespace Sys2Proof.Machine

def exec (i : Instr) (s : State) : Host.Outcome State Fault Refusal :=
  match i with
  | .aSync0 => Sys2Proof.Machine.execASync0 s
  | .aDrop b => Sys2Proof.Machine.execADrop b s
  | .aSync1 => Sys2Proof.Machine.execASync1 s
  | .aResync => Sys2Proof.Machine.execAResync s
  | .aMiss b => Sys2Proof.Machine.execAMiss b s
  | .aAppend b => Sys2Proof.Machine.execAAppend b s
  | .aLast b => Sys2Proof.Machine.execALast b s
  | .fStruct f => Sys2Proof.Machine.execFStruct f s
  | .fCksum f => Sys2Proof.Machine.execFCksum f s
  | .fValid f => Sys2Proof.Machine.execFValid f s
  | .mFwd smp => Sys2Proof.Machine.execMFwd smp s
  | .mBwd smp => Sys2Proof.Machine.execMBwd smp s
  | .mRight smp => Sys2Proof.Machine.execMRight smp s
  | .mLeft smp => Sys2Proof.Machine.execMLeft smp s
  | .mStop smp => Sys2Proof.Machine.execMStop smp s
  | .cmdStop => Sys2Proof.Machine.execCmdStop s
  | .cmdForward => Sys2Proof.Machine.execCmdForward s
  | .cmdBackward => Sys2Proof.Machine.execCmdBackward s
  | .cmdLeft => Sys2Proof.Machine.execCmdLeft s
  | .cmdRight => Sys2Proof.Machine.execCmdRight s
  | .eStruct => Sys2Proof.Machine.execEStruct s
  | .eCksum => Sys2Proof.Machine.execECksum s
  | .eCmdStop => Sys2Proof.Machine.execECmdStop s
  | .eCmdForward => Sys2Proof.Machine.execECmdForward s
  | .eCmdBackward => Sys2Proof.Machine.execECmdBackward s
  | .eCmdLeft => Sys2Proof.Machine.execECmdLeft s
  | .eCmdRight => Sys2Proof.Machine.execECmdRight s

end Sys2Proof.Machine
end

