-- ==== Sys2Proof/Machine/Pipeline.lean ====
section
/-! DEFINITION. The byte-step of R90, runs over byte sequences (R157), and one turn of the unbounded loop (R150). -/

namespace Sys2Proof.Machine

/-- `ByteStep(b)` (R90): the operation the byte selects at the scan position, run. -/
def byteStep (b : Byte) (s : State) : Result :=
  exec (decodeByte s.cfg s.st s.len b) s

/-- A run over a finite byte sequence: the left fold of the byte-step (R157). -/
def runBytes : List Byte → State → Result
  | [], s => .next s
  | b :: bs, s => andThen (byteStep b s) (runBytes bs)

/-- One turn of the loop (R150). The reset input first (R190); then, while something is pending, it is handed
out and no byte is taken (R30); then `Next()` and the byte-step. With no byte to read the block waits: nothing
changes (R106). DEDUCED: log entries 2 and 4; safe. -/
def pipelineStep (s : State) : Result :=
  if s.rst then .next s.resetEvent
  else if s.pend.isEmpty then
    match s.input with
    | [] => .next s
    | b :: rest => byteStep b { s with input := rest }
  else .next s.sink

/-- ByteSource for a whole run: a finite or infinite sequence of bytes fixed before the run, of any content (R47). -/
inductive ByteSource where
  | finite (l : List Byte)
  | infinite (f : Nat → Byte)

/-- The byte at a position of the sequence, while there is one. -/
def ByteSource.byte? : ByteSource → Nat → Option Byte
  | .finite l, k => l[k]?
  | .infinite f, k => some (f k)

/-- The bytes at the first `n` positions. -/
def ByteSource.first (src : ByteSource) (n : Nat) : List Byte :=
  (List.range n).filterMap src.byte?

/-- ByteSource offers its next byte, or none: it arrives behind what has not been read yet (R47). -/
def State.deliver (b : Option Byte) (s : State) : State :=
  { s with input := s.input ++ b.toList }

/-- The unbounded loop on a byte source, seen for `n` turns: before each turn the source's next byte, if there is
one, has arrived (R47, R150, R157). With an infinite source the turns never end, so there is a state for every
`n`; with a finite one the turns after its last byte wait. DESIGN CHOICE on the arrival: log entry 22; safe. -/
def sourceRun (src : ByteSource) : Nat → State → Result
  | 0, s => .next s
  | n + 1, s => andThen (sourceRun src n s) (fun t => pipelineStep (t.deliver (src.byte? n)))

/-- The frame a byte hands on to PROCESS, if the byte completes one (R97). -/
def frameHandedOn (s : State) (b : Byte) : Option Frame :=
  match decodeByte s.cfg s.st s.len b with
  | .aLast v => State.bufferFrame? { s with buf := s.buf.write offCk v }
  | _ => none

/-- The frames a run hands on to PROCESS, in order (R98, R184). -/
def framesHandedOn : List Byte → State → List Frame
  | [], _ => []
  | b :: bs, s =>
    match byteStep b s with
    | .next t => (frameHandedOn s b).toList ++ framesHandedOn bs t
    | _ => (frameHandedOn s b).toList

/-- `AssembleNext` (R98) over the bytes at hand: the frame the next A.LAST forms, the bytes left and the state
left; none while the bytes at hand complete no frame, when the block is still blocked in it. -/
def assembleNext : List Byte → State → Option (Frame × List Byte × State)
  | [], _ => none
  | b :: bs, s =>
    match byteStep b s with
    | .next t =>
      match frameHandedOn s b with
      | some f => some (f, bs, t)
      | none => assembleNext bs t
    | _ => none

end Sys2Proof.Machine
end

