-- ==== Sys2Proof/Machine/Stream.lean ====
section
/-! DEFINITION. The stream notation of R83 to R85: the frame constructor and the expansion of a stream program. Notation
only; the block does not read it. -/

namespace Sys2Proof.Machine

/-- The fourteen bytes `p` of `FRAME wx, wy, wz` (R84). -/
def framePayload (cfg : Config) (smp : Sample) : List Byte :=
  [cfg.marker0, cfg.marker1] ++ wordBytes smp.x ++ wordBytes smp.y ++ wordBytes smp.z

/-- `BADFRAME wx, wy, wz, ck` (R85): the fifteenth byte given. -/
def frameWith (cfg : Config) (smp : Sample) (ck : Byte) : Frame :=
  ⟨framePayload cfg smp ++ [ck], rfl⟩

/-- `FRAME wx, wy, wz` (R84). -/
def frameFor (cfg : Config) (smp : Sample) : Frame :=
  frameWith cfg smp (checksum (framePayload cfg smp))

/-- A line of a stream program (R83 to R85). -/
inductive StreamLine where
  | byte (v : Byte)
  | bytes (vs : List Byte)
  | noise (vs : List Byte)
  | frame (wx wy wz : Word)
  | badFrame (wx wy wz : Word) (ck : Byte)
deriving DecidableEq, Repr

/-- The bytes of a line. -/
def expandLine (cfg : Config) : StreamLine → List Byte
  | .byte v => [v]
  | .bytes vs => vs
  | .noise vs => vs
  | .frame wx wy wz => (frameFor cfg ⟨wx, wy, wz⟩).bytes
  | .badFrame wx wy wz ck => (frameWith cfg ⟨wx, wy, wz⟩ ck).bytes

/-- A program's encoding is the concatenation of its lines, first line first (R83). -/
def expandStream (cfg : Config) (p : List StreamLine) : List Byte :=
  p.flatMap (expandLine cfg)

end Sys2Proof.Machine
end

