-- ==== Sys2Proof/Machine/Fetch.lean ====
section
/-! DEFINITION. What it takes for the very next step to run a given operation (log entry 3): the scan position its row
needs and its byte at ByteSource; for a frame, fourteen bytes received and the fifteenth next; for a sample,
its FRAME; for a command or its event, that command pending; for the event of a rejection, such a frame. -/

namespace Sys2Proof.Machine

/-- A scan position with its buffer bytes, nothing else in the way, and the bytes `l` next at ByteSource. -/
def State.placeBytes (q : ScanState) (got l : List Byte) (s : State) : State :=
  { s with st := q, len := got.length, buf := Memory.ofBytes 0 got, pend := [], rst := false,
           input := l ++ s.input }

/-- Fourteen bytes of a frame received, the fifteenth next. -/
def State.placeFrame (f : Frame) (s : State) : State :=
  s.placeBytes .collecting (f.bytes.take 14) (f.bytes.drop 14)

/-- A command pending. -/
def State.placeCommand (c : Command) (s : State) : State :=
  { s with pend := [c], rst := false }

/-- A sample of zeros. -/
def zeroSample : Sample := ⟨0#32, 0#32, 0#32⟩

/-- A frame with a bad marker, whatever the parameters. -/
def badMarkerFrame (cfg : Config) : Frame :=
  frameFor { cfg with marker0 := ~~~ cfg.marker0 } zeroSample

/-- A frame with a good marker and a bad checksum. -/
def badChecksumFrame (cfg : Config) : Frame :=
  frameWith cfg zeroSample (~~~ checksum (framePayload cfg zeroSample))

/-- The state in which the next step runs the operation. -/
def State.place (i : Instr) (s : State) : State :=
  match i with
  | .aSync0 => s.placeBytes .idle [] [s.cfg.marker0]
  | .aDrop b => s.placeBytes .idle [] [b]
  | .aSync1 => s.placeBytes .matched [s.cfg.marker0] [s.cfg.marker1]
  | .aResync => s.placeBytes .matched [s.cfg.marker0] [s.cfg.marker0]
  | .aMiss b => s.placeBytes .matched [s.cfg.marker0] [b]
  | .aAppend b => s.placeBytes .collecting [s.cfg.marker0, s.cfg.marker1] [b]
  | .aLast b => s.placeBytes .collecting (framePayload s.cfg zeroSample) [b]
  | .fStruct f => s.placeFrame f
  | .fCksum f => s.placeFrame f
  | .fValid f => s.placeFrame f
  | .mFwd smp => s.placeFrame (frameFor s.cfg smp)
  | .mBwd smp => s.placeFrame (frameFor s.cfg smp)
  | .mRight smp => s.placeFrame (frameFor s.cfg smp)
  | .mLeft smp => s.placeFrame (frameFor s.cfg smp)
  | .mStop smp => s.placeFrame (frameFor s.cfg smp)
  | .cmdStop => s.placeCommand .stop
  | .cmdForward => s.placeCommand (forwardCmd s.cfg)
  | .cmdBackward => s.placeCommand (backwardCmd s.cfg)
  | .cmdLeft => s.placeCommand (leftCmd s.cfg)
  | .cmdRight => s.placeCommand (rightCmd s.cfg)
  | .eStruct => s.placeFrame (badMarkerFrame s.cfg)
  | .eCksum => s.placeFrame (badChecksumFrame s.cfg)
  | .eCmdStop => s.placeCommand .stop
  | .eCmdForward => s.placeCommand (forwardCmd s.cfg)
  | .eCmdBackward => s.placeCommand (backwardCmd s.cfg)
  | .eCmdLeft => s.placeCommand (leftCmd s.cfg)
  | .eCmdRight => s.placeCommand (rightCmd s.cfg)

/-- The state in which the next step runs the operation of a table word; unchanged where the word is no row. -/
def placeTableWord (s : State) (nbits w : Nat) : State :=
  match decodeTableWord nbits w with
  | none => s
  | some i => s.place i

end Sys2Proof.Machine
end

