-- ==== Sys2Proof/Machine/Step.lean ====
section
/-! DEFINITION. The step of the machine and the host's placing of a table word. -/

namespace Sys2Proof.Machine

/-- One step: one turn of the loop of R150 (`pipelineStep`). -/
def step (s : State) : Host.Outcome State Fault Refusal := pipelineStep s

/-- The state in which the very next step runs the operation of a table word (log entry 3). -/
def State.withFetchWord (s : State) (nbits w : Nat) : State := placeTableWord s nbits w

end Sys2Proof.Machine
end

