-- ==== Sys2Proof/Machine/Cycle.lean ====
section
/-! DEFINITION. The cycle-level binding of 20_memory.md R52 to R55: ports, handshakes and the pending-emission latch, one
clock edge at a time. No rule of behaviour depends on it (R6); it runs the same byte-step. -/

namespace Sys2Proof.Machine.Cycle

/-- The input ports at a clock edge (R52, R53). -/
structure CycleIn where
  rst : Bool
  inValid : Bool
  inData : Byte
deriving DecidableEq, Repr

/-- The output ports in a cycle (R53 to R55). A word port is none while its valid signal is 0, when its value
"is not meaningful" (R54). -/
structure CycleOut where
  inReady : Bool
  cmdWord : Option (BitVec 35)
  diagWord : Option (BitVec 7)
deriving DecidableEq, Repr

/-- The block with its latch (R30): `core` is its own state, with traces and input not used (the ports carry
them), and the latch holds what is still to go out on each port. -/
structure CycleState where
  core : State
  cmdLatch : List Command
  diagLatch : List DiagEvent
deriving DecidableEq, Repr

/-- No emission of an earlier frame is pending (R53). -/
def CycleState.ready (c : CycleState) : Bool :=
  c.cmdLatch.isEmpty && c.diagLatch.isEmpty

/-- `cmd_valid` (R54). -/
def CycleOut.cmdValid (o : CycleOut) : Bool := o.cmdWord.isSome

/-- `diag_valid` (R55). -/
def CycleOut.diagValid (o : CycleOut) : Bool := o.diagWord.isSome

/-- The state after reset: the block's, latch empty (R34). -/
def CycleState.reset : CycleState where
  core := State.reset
  cmdLatch := []
  diagLatch := []

/-- Latch what a byte-step put out. -/
def latchOutputs (t : State) : CycleState where
  core := { t with cmds := [], diags := [] }
  cmdLatch := t.cmds
  diagLatch := t.diags

/-- A cycle's effect with the reset input asserted (R52, R190, R191): reset state, nothing read, nothing
emitted, what was pending is discarded. -/
def resetEdge (c : CycleState) : CycleState × CycleOut :=
  (⟨c.core.resetEvent, [], []⟩, ⟨false, none, none⟩)

/-- A cycle in which something is pending: one command and one event go out, no byte is taken (R53 to R55).
DESIGN CHOICE on the pace: log entry 16; safe. -/
def emitEdge (c : CycleState) : CycleState × CycleOut :=
  (⟨c.core, c.cmdLatch.tail, c.diagLatch.tail⟩,
   ⟨false, c.cmdLatch.head?.map encodeCommand, c.diagLatch.head?.map encodeEvent⟩)

/-- One rising clock edge: the next state and what the ports carry in that cycle. -/
def clockEdge (c : CycleState) (i : CycleIn) : Host.Outcome (CycleState × CycleOut) Fault Refusal :=
  if i.rst then .next (resetEdge c)
  else if c.ready then
    if i.inValid then
      match byteStep i.inData { c.core with cmds := [], diags := [] } with
      | .next t => .next (latchOutputs t, ⟨true, none, none⟩)
      | .fault r => .fault r
      | .refused r => .refused r
    else .next (c, ⟨true, none, none⟩)
  else .next (emitEdge c)

/-- A run over a sequence of cycles: the last state and the outputs of each cycle. -/
def runCycles : List CycleIn → CycleState → Host.Outcome (CycleState × List CycleOut) Fault Refusal
  | [], c => .next (c, [])
  | i :: l, c =>
    match clockEdge c i with
    | .fault r => .fault r
    | .refused r => .refused r
    | .next (c', o) =>
      match runCycles l c' with
      | .fault r => .fault r
      | .refused r => .refused r
      | .next (c'', os) => .next (c'', o :: os)

/-- The clock never stops (R52): what the ports are driven with at every edge, seen for `n` edges (R47, R53). -/
def runClock (ports : Nat → CycleIn) (n : Nat) (c : CycleState) :
    Host.Outcome (CycleState × List CycleOut) Fault Refusal :=
  runCycles ((List.range n).map ports) c

/-- The bytes delivered in a run: those of the cycles in which `in_valid` and `in_ready` are both 1 (R53). -/
def deliveredBytes : List CycleIn → List CycleOut → List Byte
  | i :: l, o :: os => (if i.inValid && o.inReady then [i.inData] else []) ++ deliveredBytes l os
  | _, _ => []

end Sys2Proof.Machine.Cycle
end

