-- ==== Sys2Proof/Safety.lean ====
section
/-! DEFINITION. The terms claims use: the invariants of R24, what two states share, and runs. -/

namespace Sys2Proof.Machine

/-- The invariants of R24, with the buffer holding exactly the offsets 0 to `len` − 1 (R23) and nothing pending
between byte-steps (R30). -/
abbrev State.Inv (s : State) : Prop :=
  s.buf.map Prod.fst = List.range s.len ∧
  (s.st = .idle → s.len = 0) ∧
  (s.st = .matched → s.len = 1 ∧ s.buf.read 0 = some s.cfg.marker0) ∧
  (s.st = .collecting → 2 ≤ s.len ∧ s.len ≤ 14 ∧
    s.buf.read 0 = some s.cfg.marker0 ∧ s.buf.read 1 = some s.cfg.marker1) ∧
  s.pend = []

/-- Nothing the environment gives has changed: parameters, reset input, undelivered bytes. -/
abbrev SameInputs (s t : State) : Prop :=
  t.cfg = s.cfg ∧ t.rst = s.rst ∧ t.input = s.input

/-- Nothing has been put out or is pending that was not before. -/
abbrev SameOutputs (s t : State) : Prop :=
  t.pend = s.pend ∧ t.cmds = s.cmds ∧ t.diags = s.diags

/-- The assembler's scan state is the same: scan position and every buffer byte. -/
abbrev SameScan (s t : State) : Prop :=
  t.st = s.st ∧ t.len = s.len ∧ ∀ a, t.buf.read a = s.buf.read a

/-- The scan position is (Idle, 0) and no buffer byte is readable. -/
abbrev ScanEmpty (t : State) : Prop :=
  t.st = .idle ∧ t.len = 0 ∧ ∀ a, t.buf.read a = none

/-- The events of a list of commands: one `E.CMD` each, none without `HAS_DIAG` (R152, R176). -/
def eventsOf (cfg : Config) (cs : List Command) : List DiagEvent :=
  if cfg.hasDiag then cs.map (fun c => .cmd c.tag) else []

/-- The commands a frame causes: those of its sample if it is Valid, none otherwise (R184). -/
def frameCommands (cfg : Config) (f : Frame) : List Command :=
  match validate cfg f with
  | .valid => mapCommands cfg (decodeSampleOf f)
  | _ => []

/-- The events a frame causes (R173, R174, R176). -/
def frameEvents (cfg : Config) (f : Frame) : List DiagEvent :=
  match validate cfg f with
  | .valid => eventsOf cfg (mapCommands cfg (decodeSampleOf f))
  | .structuralError => if cfg.hasDiag then [.struct] else []
  | .checksumError => if cfg.hasDiag then [.cksum] else []

/-- A sequence of operations, each on the state the one before left. -/
def execAll : List Instr → State → Result
  | [], s => .next s
  | i :: l, s => andThen (exec i s) (execAll l)

/-- The command row of a command's tag (R70). -/
def commandRow : Tag → Instr
  | .stop => .cmdStop
  | .forward => .cmdForward
  | .backward => .cmdBackward
  | .left => .cmdLeft
  | .right => .cmdRight

/-- The event row of a command's tag (R71). -/
def eventRow : Tag → Instr
  | .stop => .eCmdStop
  | .forward => .eCmdForward
  | .backward => .eCmdBackward
  | .left => .eCmdLeft
  | .right => .eCmdRight

/-- Byte sequences in which no `MARKER0` is immediately followed by `MARKER1` (R102). -/
def noMarkerPair (cfg : Config) : List Byte → Bool
  | a :: b :: l => !(decide (a = cfg.marker0) && decide (b = cfg.marker1)) && noMarkerPair cfg (b :: l)
  | _ => true

/-- The table of R139: the commands by the class of y and the class of x. -/
def mapTable (cfg : Config) : AxisClass → AxisClass → List Command
  | .pos, .pos => [forwardCmd cfg, rightCmd cfg]
  | .pos, .neg => [forwardCmd cfg, leftCmd cfg]
  | .pos, .within => [forwardCmd cfg]
  | .pos, .unordered => [forwardCmd cfg]
  | .neg, .pos => [backwardCmd cfg, rightCmd cfg]
  | .neg, .neg => [backwardCmd cfg, leftCmd cfg]
  | .neg, .within => [backwardCmd cfg]
  | .neg, .unordered => [backwardCmd cfg]
  | .within, .pos => [rightCmd cfg]
  | .within, .neg => [leftCmd cfg]
  | .within, .within => [.stop]
  | .within, .unordered => []
  | .unordered, .pos => [rightCmd cfg]
  | .unordered, .neg => [leftCmd cfg]
  | .unordered, .within => []
  | .unordered, .unordered => []

/-- The bytes the buffer holds, in order. -/
def State.bufBytes (s : State) : List Byte := s.buf.map Prod.snd

end Sys2Proof.Machine
end

