-- ==== Sys2Proof/Certificates/Slice0/Obligations.lean ====
section
/-! DEFINITION. The statements about the model, each from the rules its docstring names. -/

open Sys2Proof Sys2Proof.Machine

/-! Reset -/

/-- R34: the reset values, and that the first byte is decoded in Idle. The parameters, the empty `input` and the
released `rst` of `State.reset` are not part of it (log entries 3, 12).
The spec marks all but Idle as its own (D14, D15, derived from R24). -/
def Obligations.ResetLeavesIdleEmptyAndSilent : Prop :=
  State.reset.st = .idle ∧ State.reset.len = 0 ∧ (∀ a, State.reset.buf.read a = none) ∧
  State.reset.pend = [] ∧ Cycle.CycleState.reset.cmdLatch = [] ∧ Cycle.CycleState.reset.diagLatch = [] ∧
  State.reset.cmds = [] ∧ State.reset.diags = [] ∧
  ∀ b, decodeByte State.reset.cfg State.reset.st State.reset.len b =
    if b = State.reset.cfg.marker0 then .aSync0 else .aDrop b

/-- The invariants of R24 and the buffer's canonical form hold after reset.
The form of the buffer is log entry 5. -/
def Obligations.ResetMeetsInvariants : Prop :=
  State.reset.Inv ∧ Memory.wf State.reset.buf = true

/-- R190 as the model renders it (the reset input is a level in State, log entry 12): a step with it asserted reads
no byte, emits nothing and leaves the scan state of reset, from any state, mid-frame included (R191).
The effect is the spec's decision D15. -/
def Obligations.AssertedResetDiscardsTheScanState : Prop :=
  ∀ s : State, s.rst = true →
    ∃ t, step s = .next t ∧ ScanEmpty t ∧ t.pend = [] ∧ SameInputs s t ∧
      t.cmds = s.cmds ∧ t.diags = s.diags

/-! The step -/

/-- R90, R150: with a byte to read, a step is the operation that byte selects at the scan position.
The premises on reset and the latch are log entries 4 and 12. -/
def Obligations.StepRunsTheSelectedOperation : Prop :=
  ∀ (s : State) (b : Byte) (rest : List Byte), s.rst = false → s.pend = [] → s.input = b :: rest →
    step s = exec (decodeByte s.cfg s.st s.len b) { s with input := rest }

/-- R106: with no byte to read the block waits, however long, and nothing changes. (That waiting is a step that
changes nothing is log entry 2.) -/
def Obligations.WaitingForAByteChangesNothing : Prop :=
  ∀ (s : State) (k : Nat), s.rst = false → s.pend = [] → s.input = [] →
    Host.Core.run core k s = .next s

/-- R30, R152, the model's choice of log entry 4: what is pending is handed out before a byte is taken. -/
def Obligations.PendingCommandsGoOutFirst : Prop :=
  ∀ s : State, s.rst = false → s.pend ≠ [] →
    ∃ t, step s = .next t ∧ t.pend = [] ∧ t.cmds = s.cmds ++ s.pend ∧
      t.diags = s.diags ++ eventsOf s.cfg s.pend ∧ SameInputs s t ∧ SameScan s t

/-- R24, R100: every step keeps the invariants.
The spec marks R24 as its bookkeeping (D3) and R100 as derived; the form of the buffer is log entry 5 and the empty latch log entry 4. -/
def Obligations.StepKeepsScanInvariants : Prop :=
  ∀ s t : State, s.Inv → step s = .next t → t.Inv

/-- Every step, from every state, keeps the buffer's canonical form: rising offsets inside 0..14 (R40, R41).
The form is log entry 5. -/
def Obligations.StepKeepsBufferCanonical : Prop :=
  ∀ s t : State, Memory.wf s.buf = true → step s = .next t → Memory.wf t.buf = true

/-- R90, R46, R29: a step that takes a byte takes exactly that one; a step under reset, with something pending or
with no byte waiting takes none; and no step changes the parameters. That the reset level is a field only the
environment changes is log entry 12, and that what is pending goes out before a byte is taken log entry 4. -/
def Obligations.StepConsumesOneByteAndKeepsParameters : Prop :=
  (∀ (s t : State) (b : Byte) (rest : List Byte), s.rst = false → s.pend = [] → s.input = b :: rest →
    step s = .next t → t.input = rest) ∧
  (∀ s t : State, s.rst = true ∨ s.pend ≠ [] ∨ s.input = [] → step s = .next t → t.input = s.input) ∧
  (∀ s t : State, step s = .next t → t.cfg = s.cfg ∧ t.rst = s.rst)

/-- R46, R48, R49: the two traces are appended to and nothing put out is taken back. -/
def Obligations.StepOnlyExtendsTraces : Prop :=
  ∀ s t : State, step s = .next t → s.cmds <+: t.cmds ∧ s.diags <+: t.diags

/-- R156: the byte-step is total on every state that meets the invariants; and wherever it goes on it puts out at
most two commands, only for a Valid frame, and exactly the events R156 lists.
The spec marks R156 as derived from R150 to R152. -/
def Obligations.ByteStepIsTotalAndBounded : Prop :=
  (∀ (s : State) (b : Byte), s.Inv → ∃ t, byteStep b s = .next t) ∧
  ∀ (s t : State) (b : Byte), byteStep b s = .next t →
    ∃ (cs : List Command) (ds : List DiagEvent),
      t.cmds = s.cmds ++ cs ∧ t.diags = s.diags ++ ds ∧ cs.length ≤ 2 ∧ ds.length ≤ 2 ∧
      (cs ≠ [] → ∃ f, frameHandedOn s b = some f ∧ validate s.cfg f = .valid) ∧
      (s.cfg.hasDiag = false → ds = []) ∧
      (s.cfg.hasDiag = true →
        (frameHandedOn s b = none → ds = []) ∧
        (∀ f, frameHandedOn s b = some f → validate s.cfg f = .structuralError → ds = [.struct]) ∧
        (∀ f, frameHandedOn s b = some f → validate s.cfg f = .checksumError → ds = [.cksum]) ∧
        (∀ f, frameHandedOn s b = some f → validate s.cfg f = .valid → ds = cs.map (fun c => .cmd c.tag)))

/-! Decoding and encoding -/

/-- R66: the decode table of a byte, row by row. -/
def Obligations.ByteSelectsItsTableRow : Prop :=
  ∀ (cfg : Config) (len : Nat) (b : Byte),
    (b = cfg.marker0 → decodeByte cfg .idle len b = .aSync0) ∧
    (b ≠ cfg.marker0 → decodeByte cfg .idle len b = .aDrop b) ∧
    (b = cfg.marker1 → decodeByte cfg .matched len b = .aSync1) ∧
    (b ≠ cfg.marker1 → b = cfg.marker0 → cfg.reeval = true → decodeByte cfg .matched len b = .aResync) ∧
    (b ≠ cfg.marker1 → (b ≠ cfg.marker0 ∨ cfg.reeval = false) → decodeByte cfg .matched len b = .aMiss b) ∧
    (len < 14 → decodeByte cfg .collecting len b = .aAppend b) ∧
    (len = 14 → decodeByte cfg .collecting len b = .aLast b)

/-- Words written out from the tables of R66, R70 and R71 decode to their rows.
The numbering of the sample's bits is log entry 13, the names of the rejections log entry 15. -/
def Obligations.SampleWordsDecodeToTheirRows : Prop :=
  decode Config.hw .idle 0 (.byte 0x21#8) = .ok [.aSync0] ∧
  decode Config.hw .idle 0 (.byte 0x47#8) = .ok [.aDrop 0x47#8] ∧
  decode Config.hw .matched 1 (.byte 0x47#8) = .ok [.aSync1] ∧
  decode Config.hw .collecting 13 (.byte 0x21#8) = .ok [.aAppend 0x21#8] ∧
  decode Config.hw .collecting 14 (.byte 0x21#8) = .ok [.aLast 0x21#8] ∧
  decode Config.hw .idle 0 (.frame 0x970000000000000000000000004721#120) =
    .ok [.fValid (frameFor Config.hw zeroSample)] ∧
  decode Config.hw .idle 0 (.sample 0x000000003F0000003F000000#96) =
    .ok [.mFwd ⟨0x3F000000#32, 0x3F000000#32, 0#32⟩, .mRight ⟨0x3F000000#32, 0x3F000000#32, 0#32⟩] ∧
  decode Config.hw .idle 0 (.cmd 0x10BB80BB8#35) = .ok [.cmdForward] ∧
  decode Config.hw .idle 0 (.cmd 0x50BB80BB8#35) = .error .reservedTag ∧
  decode Config.hw .idle 0 (.diag 0x1C#7) = .ok [.eCmdRight]

/-- Decode and encode agree: at every scan position its row admits, a well-formed operation's word decodes to it,
and to nothing else except that a sample may select a second row (R66, R68, R70, R71).
The numbering of the sample's bits is log entry 13. -/
def Obligations.EncodedOperationsDecodeBack : Prop :=
  ∀ (cfg : Config) (i : Instr) (st : ScanState) (len : Nat), cfg.legal →
    i.wellFormed cfg = true → i.admits st len = true →
    ∃ l, decode cfg st len (encode cfg i) = .ok l ∧ i ∈ l ∧ (i.format ≠ .sample → l = [i])

/-- R62, R66, R68, R70, R71, R73, the other direction: what a word decodes to is well formed and has that word, so
each word means one thing. The numbering of a sample's bits is log entry 13, and which output words are rejected,
and by which name, log entry 15. -/
def Obligations.DecodedOperationsEncodeBack : Prop :=
  ∀ (cfg : Config) (c : Code) (st : ScanState) (len : Nat) (l : List Instr) (i : Instr),
    cfg.legal → decode cfg st len c = .ok l → i ∈ l →
    i.wellFormed cfg = true ∧ encode cfg i = c

/-! The byte-step operations -/

/-- R91: A.DROP leaves no trace. -/
def Obligations.DropLeavesNoTrace : Prop :=
  ∀ (s : State) (b : Byte),
    exec (.aDrop b) s = .next s ∧
    (s.st = .idle → b ≠ s.cfg.marker0 → decodeByte s.cfg s.st s.len b = .aDrop b)

/-- R92: A.SYNC0 stores the marker byte at offset 0 and goes to (Matched, 1).
The spec marks storing the byte as its bookkeeping (D3). -/
def Obligations.FirstMarkerByteEntersMatched : Prop :=
  ∀ s : State,
    (∃ t, exec .aSync0 s = .next t ∧ t.st = .matched ∧ t.len = 1 ∧
      t.buf.read 0 = some s.cfg.marker0 ∧ (∀ a, a ≠ 0 → t.buf.read a = s.buf.read a) ∧
      SameInputs s t ∧ SameOutputs s t) ∧
    (s.st = .idle → decodeByte s.cfg s.st s.len s.cfg.marker0 = .aSync0)

/-- R93: A.SYNC1 stores the marker byte at offset 1 and goes to (Collecting, 2), where the buffer holds the two
marker bytes. -/
def Obligations.SecondMarkerByteEntersCollecting : Prop :=
  ∀ s : State,
    (∃ t, exec .aSync1 s = .next t ∧ t.st = .collecting ∧ t.len = 2 ∧
      t.buf.read 1 = some s.cfg.marker1 ∧ (∀ a, a ≠ 1 → t.buf.read a = s.buf.read a) ∧
      SameInputs s t ∧ SameOutputs s t ∧
      (s.Inv → s.st = .matched → t.bufBytes = [s.cfg.marker0, s.cfg.marker1])) ∧
    (s.st = .matched → decodeByte s.cfg s.st s.len s.cfg.marker1 = .aSync1)

/-- R94: A.RESYNC resets the buffer, stores the marker byte at offset 0 and is in (Matched, 1) after; the scan
state before and after are the same where the invariants hold.
A.RESYNC is the spec's decision D2. -/
def Obligations.RepeatedMarkerByteStaysMatched : Prop :=
  ∀ s : State,
    ∃ t, exec .aResync s = .next t ∧ t.st = .matched ∧ t.len = 1 ∧
      t.buf.read 0 = some s.cfg.marker0 ∧ (∀ a, a ≠ 0 → t.buf.read a = none) ∧
      SameInputs s t ∧ SameOutputs s t ∧ (s.Inv → s.st = .matched → SameScan s t)

/-- R95: A.MISS resets the buffer and goes to (Idle, 0), with no other effect. -/
def Obligations.MarkerMissResetsTheBuffer : Prop :=
  ∀ (s : State) (b : Byte),
    (∃ t, exec (.aMiss b) s = .next t ∧ ScanEmpty t ∧ SameInputs s t ∧ SameOutputs s t) ∧
    (s.st = .matched → b ≠ s.cfg.marker1 → (b ≠ s.cfg.marker0 ∨ s.cfg.reeval = false) →
      decodeByte s.cfg s.st s.len b = .aMiss b)

/-- R96: A.APPEND stores any byte at offset `len` and raises `len` by one. -/
def Obligations.AppendStoresTheByteAtLen : Prop :=
  ∀ (s : State) (b : Byte), s.st = .collecting → s.len < 14 →
    decodeByte s.cfg s.st s.len b = .aAppend b ∧
    ∃ t, exec (.aAppend b) s = .next t ∧ t.st = .collecting ∧ t.len = s.len + 1 ∧
      t.buf.read s.len = some b ∧ (∀ a, a ≠ s.len → t.buf.read a = s.buf.read a) ∧
      SameInputs s t ∧ SameOutputs s t

/-- R97: A.LAST makes the frame of the fourteen bytes received and its own, resets the scan state, and PROCESS
runs on the frame. -/
def Obligations.LastByteHandsTheFrameOn : Prop :=
  ∀ (s : State) (b : Byte), s.Inv → s.st = .collecting → s.len = 14 →
    ∃ (f : Frame) (t : State),
      (∀ i : Fin 15, i.val < 14 → s.buf.read i.val = some (f.byte i)) ∧ f.byte 14 = b ∧
      exec (.aLast b) s = .next t ∧ ScanEmpty t ∧ SameInputs s t ∧ t.pend = [] ∧
      t.cmds = s.cmds ++ frameCommands s.cfg f ∧ t.diags = s.diags ++ frameEvents s.cfg f

/-- R97, R151, R68: A.LAST is the frame's own row, run on the state after the buffer reset. -/
def Obligations.LastByteRunsTheFramesRow : Prop :=
  ∀ (s : State) (b : Byte) (f : Frame), frameHandedOn s b = some f →
    byteStep b s = exec (decodeFrame s.cfg f) s.bufferReset

/-- R41, R12: outside the invariants of R24 an append at an offset that does not exist, and an A.LAST with one of
the first fourteen bytes missing, stop by name (the model's choice, log entries 5 and 6). -/
def Obligations.AccessesTheRulesExcludeStop : Prop :=
  (∀ (s : State) (b : Byte), 15 ≤ s.len → exec (.aAppend b) s = .fault (.noSuchOffset s.len)) ∧
  (∀ (s : State) (b : Byte) (i : Nat), i < 14 → s.buf.read i = none →
    exec (.aLast b) s = .fault .frameIncomplete)

/-- R96, R67: in Collecting every byte is stored in order, whatever it is, and nothing is put out. -/
def Obligations.CollectingStoresBytesUninspected : Prop :=
  ∀ (l : List Byte) (s : State), s.Inv → s.st = .collecting → s.len + l.length ≤ 14 →
    ∃ t, runBytes l s = .next t ∧ t.Inv ∧ t.st = .collecting ∧ t.len = s.len + l.length ∧
      t.bufBytes = s.bufBytes ++ l ∧ SameInputs s t ∧ SameOutputs s t

/-- R94: a run of one or more `MARKER0` bytes from Idle leaves Matched, however long it is. A.RESYNC is the spec's
decision D2. -/
def Obligations.MarkerRunLeavesMatched : Prop :=
  ∀ (s : State) (n : Nat), s.Inv → s.st = .idle → s.cfg.legal → s.cfg.reeval = true →
    ∃ t, runBytes (List.replicate (n + 1) s.cfg.marker0) s = .next t ∧ t.st = .matched ∧ t.len = 1 ∧
      t.bufBytes = [s.cfg.marker0] ∧ SameInputs s t ∧ SameOutputs s t

/-- R104: with `REEVAL` false a `MARKER0` in Matched is discarded; the settings differ on no other byte; and the
smallest input that tells them apart.
REEVAL is the spec's decision D2 (log entry 7). -/
def Obligations.ReevalDecidesOnlyRepeatedMarkers : Prop :=
  ∀ cfg : Config, cfg.legal →
    decodeByte { cfg with reeval := false } .matched 1 cfg.marker0 = .aMiss cfg.marker0 ∧
    (∀ (st : ScanState) (len : Nat) (b : Byte), ¬(st = .matched ∧ b = cfg.marker0) →
      decodeByte { cfg with reeval := false } st len b = decodeByte { cfg with reeval := true } st len b) ∧
    (∃ t, runBytes [cfg.marker0, cfg.marker0, cfg.marker1] { State.reset with cfg := { cfg with reeval := true } }
      = .next t ∧ t.st = .collecting ∧ t.len = 2) ∧
    (∃ t, runBytes [cfg.marker0, cfg.marker0, cfg.marker1] { State.reset with cfg := { cfg with reeval := false } }
      = .next t ∧ t.st = .idle ∧ t.len = 0)

/-! Frames: validation, exceptions, decoding -/

/-- R110, R111, R113: VALIDATE's three outcomes, the marker first. -/
def Obligations.ValidateChecksMarkerThenChecksum : Prop :=
  ∀ (cfg : Config) (f : Frame),
    (validate cfg f = .structuralError ↔ f.byte 0 ≠ cfg.marker0 ∨ f.byte 1 ≠ cfg.marker1) ∧
    (validate cfg f = .checksumError ↔
      f.byte 0 = cfg.marker0 ∧ f.byte 1 = cfg.marker1 ∧ f.byte 14 ≠ checksum (f.bytes.take 14)) ∧
    (validate cfg f = .valid ↔
      f.byte 0 = cfg.marker0 ∧ f.byte 1 = cfg.marker1 ∧ f.byte 14 = checksum (f.bytes.take 14))

/-- R112, R115: the checksum as a number, over any fourteen bytes; and that adding in eight bits with silent
wraparound, in any order, gives the same sum. -/
def Obligations.ChecksumIsComplementOfTheWrappingSum : Prop :=
  (∀ P : List Byte, P.length = 14 → (checksum P).toNat = 255 - (P.map BitVec.toNat).sum % 256) ∧
  (∀ l l' : List Byte, l.Perm l' → l'.foldl (fun acc b => acc + b) 0#8 = sum8 l)

/-- R116: the fifteen-byte form of the checksum check.
The spec marks R116 as derived. -/
def Obligations.ValidFramesSumToAllOnes : Prop :=
  ∀ (cfg : Config) (f : Frame), f.byte 0 = cfg.marker0 → f.byte 1 = cfg.marker1 →
    (f.byte 14 = checksum (f.bytes.take 14) ↔ (f.bytes.map BitVec.toNat).sum % 256 = 255) ∧
    (cfg.marker0 = 0x21#8 → cfg.marker1 = 0x47#8 →
      (f.byte 14 = checksum (f.bytes.take 14) ↔ ((f.bytes.drop 2).map BitVec.toNat).sum % 256 = 0x97))

/-- R117: exactly one fifteenth byte makes fourteen bytes with a good marker a Valid frame.
The spec marks R117 as derived. -/
def Obligations.ChecksumRoundTrips : Prop :=
  ∀ (cfg : Config) (P : List Byte) (f : Frame) (c : Byte), P.length = 14 →
    P[0]? = some cfg.marker0 → P[1]? = some cfg.marker1 → f.bytes = P ++ [c] →
    (c = checksum P → validate cfg f = .valid) ∧ (c ≠ checksum P → validate cfg f = .checksumError)

/-- R118: one changed byte is always caught, by check (a) at offsets 0 and 1 and by check (b) elsewhere; a
reordering of bytes 2 to 14 is not, nor are changes of those bytes that leave the sum the same modulo 256.
The spec marks R118 as derived. -/
def Obligations.OneChangedByteIsCaughtOthersMayNotBe : Prop :=
  ∀ (cfg : Config) (f g : Frame), validate cfg f = .valid →
    (∀ i : Fin 15, g.byte i ≠ f.byte i → (∀ j : Fin 15, j ≠ i → g.byte j = f.byte j) →
      (i.val < 2 → validate cfg g = .structuralError) ∧ (2 ≤ i.val → validate cfg g = .checksumError)) ∧
    (g.byte 0 = f.byte 0 → g.byte 1 = f.byte 1 → (g.bytes.drop 2).Perm (f.bytes.drop 2) →
      validate cfg g = .valid) ∧
    (g.byte 0 = f.byte 0 → g.byte 1 = f.byte 1 →
      (g.bytes.map BitVec.toNat).sum % 256 = (f.bytes.map BitVec.toNat).sum % 256 → validate cfg g = .valid)

/-- R173, R174, R177, R178: a rejected frame causes its one event and nothing else at all; the marker is looked at
first; and in a byte-step the scan position is (Idle, 0) with all fifteen bytes gone. -/
def Obligations.RejectedFramesRaiseOneEventOnly : Prop :=
  (∀ (s : State) (f : Frame),
    (∃ t, exec (.fStruct f) s = .next t ∧
      t.diags = s.diags ++ (if s.cfg.hasDiag then [.struct] else []) ∧
      SameInputs s t ∧ SameScan s t ∧ t.pend = s.pend ∧ t.cmds = s.cmds) ∧
    (∃ t, exec (.fCksum f) s = .next t ∧
      t.diags = s.diags ++ (if s.cfg.hasDiag then [.cksum] else []) ∧
      SameInputs s t ∧ SameScan s t ∧ t.pend = s.pend ∧ t.cmds = s.cmds) ∧
    (f.byte 0 ≠ s.cfg.marker0 ∨ f.byte 1 ≠ s.cfg.marker1 → decodeFrame s.cfg f = .fStruct f) ∧
    (f.byte 0 = s.cfg.marker0 → f.byte 1 = s.cfg.marker1 → f.byte 14 ≠ checksum (f.bytes.take 14) →
      decodeFrame s.cfg f = .fCksum f)) ∧
  ∀ (s : State) (b : Byte) (f : Frame), frameHandedOn s b = some f → validate s.cfg f ≠ .valid →
    ∃ t, byteStep b s = .next t ∧ ScanEmpty t ∧ SameInputs s t ∧ t.pend = s.pend ∧ t.cmds = s.cmds ∧
      t.diags = s.diags ++ frameEvents s.cfg f

/-- R151, R152: a valid frame's commands are handed out in order, each with its event, and nothing else changes. -/
def Obligations.ValidFrameHandsOutItsCommands : Prop :=
  ∀ (s : State) (f : Frame),
    ∃ t, exec (.fValid f) s = .next t ∧
      t.cmds = s.cmds ++ mapCommands s.cfg (decodeSampleOf f) ∧
      t.diags = s.diags ++ eventsOf s.cfg (mapCommands s.cfg (decodeSampleOf f)) ∧
      t.pend = [] ∧ SameInputs s t ∧ SameScan s t

/-- R130, R151, R152: the emission rules a sample selects, run from an empty list, leave MAP's list; and F.VALID is
those rules followed, once the list they leave is taken out, by the command row and the event row of each of its
commands in order. That the list is the field `pend`, and taking it out a step of its own between the two, is the
model's choice: log entry 4. -/
def Obligations.ValidFrameRunsTheTablesRows : Prop :=
  ∀ (s : State) (f : Frame),
    execAll (decodeSample s.cfg (decodeSampleOf f)) { s with pend := [] } =
      .next { s with pend := mapCommands s.cfg (decodeSampleOf f) } ∧
    andThen (execAll (decodeSample s.cfg (decodeSampleOf f)) { s with pend := [] })
      (fun t => execAll (t.pend.flatMap (fun c => [commandRow c.tag, eventRow c.tag])) { t with pend := [] }) =
      exec (.fValid f) s

/-- R120: DECODE's formula on the bytes. -/
def Obligations.DecodeAssemblesLittleEndianWords : Prop :=
  ∀ f : Frame,
    (decodeSampleOf f).x.toNat = (f.byte 2).toNat ||| (f.byte 3).toNat <<< 8 |||
      (f.byte 4).toNat <<< 16 ||| (f.byte 5).toNat <<< 24 ∧
    (decodeSampleOf f).y.toNat = (f.byte 6).toNat ||| (f.byte 7).toNat <<< 8 |||
      (f.byte 8).toNat <<< 16 ||| (f.byte 9).toNat <<< 24 ∧
    (decodeSampleOf f).z.toNat = (f.byte 10).toNat ||| (f.byte 11).toNat <<< 8 |||
      (f.byte 12).toNat <<< 16 ||| (f.byte 13).toNat <<< 24

/-- R62: in the 120-bit numbering every field is a contiguous slice.
The spec marks R62 as derived. -/
def Obligations.FrameFieldsAreContiguousSlices : Prop :=
  ∀ f : Frame,
    (∀ (i : Fin 15) (j : Nat), j < 8 → (frameBits f).getLsbD (8 * i.val + j) = (f.byte i).getLsbD j) ∧
    (frameBits f).extractLsb' 0 8 = f.byte 0 ∧ (frameBits f).extractLsb' 8 8 = f.byte 1 ∧
    (frameBits f).extractLsb' 16 32 = (decodeSampleOf f).x ∧
    (frameBits f).extractLsb' 48 32 = (decodeSampleOf f).y ∧
    (frameBits f).extractLsb' 80 32 = (decodeSampleOf f).z ∧
    (frameBits f).extractLsb' 112 8 = f.byte 14

/-- R127, R84: DECODE of a constructed frame is its sample, and such a frame is Valid.
The spec marks R127 as derived and R84 as its decision D22. -/
def Obligations.ConstructedFramesDecodeToTheirSample : Prop :=
  (∀ (cfg : Config) (smp : Sample),
    decodeSampleOf (frameFor cfg smp) = smp ∧ validate cfg (frameFor cfg smp) = .valid) ∧
  decodeSampleOf ⟨[0x21#8, 0x47#8, 0x00#8, 0x00#8, 0xC0#8, 0x3F#8, 0x00#8, 0x00#8, 0x10#8, 0xC0#8, 0x00#8, 0x00#8,
    0x00#8, 0x00#8, 0xC8#8], rfl⟩ = ⟨0x3FC00000#32, 0xC0100000#32, 0#32⟩

/-- R85: BADFRAME is of class F.CKSUM exactly when its byte is not the checksum.
R85 is the spec's decision D22. -/
def Obligations.BadFrameIsAChecksumErrorExactlyWhen : Prop :=
  ∀ (cfg : Config) (smp : Sample) (ck : Byte),
    validate cfg (frameWith cfg smp ck) = .checksumError ↔ ck ≠ checksum (framePayload cfg smp)

/-! The mapper -/

/-- R131, R132, R133: classify's rule on bits, and that it is the comparison of the numbers the words stand for
with the exact 1/5, for every one of the 2^32 words.
That T is the exact 1/5 and that NaN compares false are the spec's readings D6, D7. -/
def Obligations.ClassifyIsTheExactComparison : Prop :=
  ∀ w : Word,
    (classify Config.hw w = .unordered ↔ 0x7F800000 < w.toNat % 2 ^ 31) ∧
    (classify Config.hw w = .pos ↔
      0x3E4CCCCD ≤ w.toNat % 2 ^ 31 ∧ w.toNat % 2 ^ 31 ≤ 0x7F800000 ∧ w.toNat < 2 ^ 31) ∧
    (classify Config.hw w = .neg ↔
      0x3E4CCCCD ≤ w.toNat % 2 ^ 31 ∧ w.toNat % 2 ^ 31 ≤ 0x7F800000 ∧ 2 ^ 31 ≤ w.toNat) ∧
    (classify Config.hw w = .within ↔ w.toNat % 2 ^ 31 < 0x3E4CCCCD) ∧
    (classify Config.hw w = .unordered ↔ f32 w = .nan) ∧
    (classify Config.hw w = .pos ↔ aboveThreshold (f32 w)) ∧
    (classify Config.hw w = .neg ↔ belowThreshold (f32 w)) ∧
    (classify Config.hw w = .within ↔ withinThreshold (f32 w))

/-- R139: the complete table of MAP.
The spec marks three cells' order as its decision. -/
def Obligations.MapFollowsTheOutcomeTable : Prop :=
  ∀ (cfg : Config) (smp : Sample),
    mapCommands cfg smp = mapTable cfg (classify cfg smp.y) (classify cfg smp.x)

/-- R141, R138: how many commands a sample produces, and that Stop stands alone.
The spec marks R141 as derived. -/
def Obligations.SampleCommandCounts : Prop :=
  ∀ (cfg : Config) (smp : Sample),
    (classify cfg smp.x ≠ .unordered → classify cfg smp.y ≠ .unordered →
      1 ≤ (mapCommands cfg smp).length ∧ (mapCommands cfg smp).length ≤ 2 ∧
      ((mapCommands cfg smp).length = 2 ↔ classify cfg smp.x ≠ .within ∧ classify cfg smp.y ≠ .within)) ∧
    (mapCommands cfg smp = [] ↔
      (classify cfg smp.y = .within ∧ classify cfg smp.x = .unordered) ∨
      (classify cfg smp.y = .unordered ∧ classify cfg smp.x = .within) ∨
      (classify cfg smp.y = .unordered ∧ classify cfg smp.x = .unordered)) ∧
    (Command.stop ∈ mapCommands cfg smp → mapCommands cfg smp = [.stop])

/-- R144: MAP does not read z; two valid frames that differ only in z, and hence in the checksum byte, cause the
same. -/
def Obligations.FieldZHasNoEffect : Prop :=
  (∀ (cfg : Config) (x y z z' : Word), mapCommands cfg ⟨x, y, z⟩ = mapCommands cfg ⟨x, y, z'⟩) ∧
  ∀ (cfg : Config) (f g : Frame), validate cfg f = .valid → validate cfg g = .valid →
    (∀ i : Fin 15, i.val < 10 → f.byte i = g.byte i) →
    frameCommands cfg f = frameCommands cfg g ∧ frameEvents cfg f = frameEvents cfg g

/-- R134 to R138: when each emission rule is selected (also on the bits of the word), that the y rules come before
the x rules and Stop is alone, and that each appends its command to the list and does nothing else. -/
def Obligations.EmissionRulesAppendTheirCommand : Prop :=
  (∀ (cfg : Config) (smp : Sample),
    (.mFwd smp ∈ decodeSample cfg smp ↔ classify cfg smp.y = .pos) ∧
    (.mBwd smp ∈ decodeSample cfg smp ↔ classify cfg smp.y = .neg) ∧
    (.mRight smp ∈ decodeSample cfg smp ↔ classify cfg smp.x = .pos) ∧
    (.mLeft smp ∈ decodeSample cfg smp ↔ classify cfg smp.x = .neg) ∧
    (.mStop smp ∈ decodeSample cfg smp ↔ classify cfg smp.x = .within ∧ classify cfg smp.y = .within) ∧
    List.Sublist (decodeSample cfg smp) [.mFwd smp, .mBwd smp, .mRight smp, .mLeft smp, .mStop smp] ∧
    (.mStop smp ∈ decodeSample cfg smp → decodeSample cfg smp = [.mStop smp])) ∧
  (∀ w : Word,
    (classify Config.hw w = .pos ↔
      w.toNat < 2 ^ 31 ∧ 0x3E4CCCCD ≤ w.toNat % 2 ^ 31 ∧ w.toNat % 2 ^ 31 ≤ 0x7F800000) ∧
    (classify Config.hw w = .neg ↔
      2 ^ 31 ≤ w.toNat ∧ 0x3E4CCCCD ≤ w.toNat % 2 ^ 31 ∧ w.toNat % 2 ^ 31 ≤ 0x7F800000) ∧
    (classify Config.hw w = .within ↔ w.toNat % 2 ^ 31 < 0x3E4CCCCD)) ∧
  ∀ (s : State) (smp : Sample) (i : Instr) (c : Command),
    (i = .mFwd smp ∧ c = .forward s.cfg.dutyL s.cfg.dutyR) ∨
    (i = .mBwd smp ∧ c = .backward s.cfg.dutyL s.cfg.dutyR) ∨
    (i = .mRight smp ∧ c = .right s.cfg.dutyL s.cfg.dutyR) ∨
    (i = .mLeft smp ∧ c = .left s.cfg.dutyL s.cfg.dutyR) ∨
    (i = .mStop smp ∧ c = .stop) →
    ∃ t, exec i s = .next t ∧ t.pend = s.pend ++ [c] ∧ t.cmds = s.cmds ∧ t.diags = s.diags ∧
      SameInputs s t ∧ SameScan s t

/-! The two sinks -/

/-- R12 (Apply), R48: a command row hands its one command to CommandSink and does nothing else. -/
def Obligations.CommandRowsExtendTheCommandTrace : Prop :=
  ∀ (s : State) (i : Instr) (c : Command),
    (i = .cmdStop ∧ c = .stop) ∨
    (i = .cmdForward ∧ c = .forward s.cfg.dutyL s.cfg.dutyR) ∨
    (i = .cmdBackward ∧ c = .backward s.cfg.dutyL s.cfg.dutyR) ∨
    (i = .cmdLeft ∧ c = .left s.cfg.dutyL s.cfg.dutyR) ∨
    (i = .cmdRight ∧ c = .right s.cfg.dutyL s.cfg.dutyR) →
    ∃ t, exec i s = .next t ∧ t.cmds = s.cmds ++ [c] ∧ t.pend = s.pend ∧ t.diags = s.diags ∧
      SameInputs s t ∧ SameScan s t

/-- R12 (Diag), R176: an event row hands its one event to the diagnostic sink, when there is one, and does
nothing else. -/
def Obligations.EventRowsExtendTheDiagnosticTrace : Prop :=
  ∀ (s : State) (i : Instr) (e : DiagEvent),
    (i = .eStruct ∧ e = .struct) ∨ (i = .eCksum ∧ e = .cksum) ∨
    (i = .eCmdStop ∧ e = .cmd .stop) ∨ (i = .eCmdForward ∧ e = .cmd .forward) ∨
    (i = .eCmdBackward ∧ e = .cmd .backward) ∨ (i = .eCmdLeft ∧ e = .cmd .left) ∨
    (i = .eCmdRight ∧ e = .cmd .right) →
    ∃ t, exec i s = .next t ∧ t.diags = s.diags ++ (if s.cfg.hasDiag then [e] else []) ∧
      t.cmds = s.cmds ∧ t.pend = s.pend ∧ SameInputs s t ∧ SameScan s t

/-- R69, R70, R71: the fields of a command word, the five command words and the seven event words.
The packing is the spec's decision (D9, D10, D11, D23). -/
def Obligations.OutputWordsArePackedAsTabled : Prop :=
  (∀ l r : Nat, l < 2 ^ 16 → r < 2 ^ 16 →
    ∀ c : Command, c = .forward l r ∨ c = .backward l r ∨ c = .left l r ∨ c = .right l r →
      (encodeCommand c).extractLsb' 32 3 = tagCode c.tag ∧
      ((encodeCommand c).extractLsb' 16 16).toNat = l ∧ ((encodeCommand c).extractLsb' 0 16).toNat = r) ∧
  encodeCommand .stop = 0#35 ∧
  encodeCommand (.forward 3000 3000) = 0x10BB80BB8#35 ∧
  encodeCommand (.backward 3000 3000) = 0x20BB80BB8#35 ∧
  encodeCommand (.left 3000 3000) = 0x30BB80BB8#35 ∧
  encodeCommand (.right 3000 3000) = 0x40BB80BB8#35 ∧
  encodeEvent .struct = 0x08#7 ∧ encodeEvent .cksum = 0x10#7 ∧
  encodeEvent (.cmd .stop) = 0x18#7 ∧ encodeEvent (.cmd .forward) = 0x19#7 ∧
  encodeEvent (.cmd .backward) = 0x1A#7 ∧ encodeEvent (.cmd .left) = 0x1B#7 ∧
  encodeEvent (.cmd .right) = 0x1C#7

/-! Runs -/

/-- R153: a byte-step that hands no Valid frame on adds nothing to the command trace, in any state. -/
def Obligations.OnlyValidFramesCommand : Prop :=
  ∀ (s t : State) (b : Byte), byteStep b s = .next t →
    (∀ f, frameHandedOn s b = some f → validate s.cfg f ≠ .valid) → t.cmds = s.cmds

/-- R184: over any run from any state, the command trace gains exactly the commands of the Valid frames handed
on, in order; and the diagnostic trace exactly the events of the frames (R176).
The spec marks R184 as derived. -/
def Obligations.TracesAreTheFramesHandedOn : Prop :=
  ∀ (bs : List Byte) (s t : State), runBytes bs s = .next t →
    t.cmds = s.cmds ++ (framesHandedOn bs s).flatMap (frameCommands s.cfg) ∧
    t.diags = s.diags ++ (framesHandedOn bs s).flatMap (frameEvents s.cfg)

/-- R101, R103, R119: every frame handed on starts with the marker (so StructuralError does not occur in the
pipeline) and is fifteen consecutive bytes of the stream, counting the bytes the buffer already held; and that
stream is, in order, the frames handed on, each after a gap of discarded bytes, then more discarded bytes and at
last the bytes the buffer holds after the run.
The spec marks R101 and R103 as derived. -/
def Obligations.FramesAreMarkedStretchesOfTheStream : Prop :=
  ∀ (bs : List Byte) (s : State), s.Inv →
    (∀ f ∈ framesHandedOn bs s, f.byte 0 = s.cfg.marker0 ∧ f.byte 1 = s.cfg.marker1 ∧
      validate s.cfg f ≠ .structuralError ∧ f.bytes <:+: s.bufBytes ++ bs) ∧
    ∃ (parts : List (List Byte × Frame)) (gap : List Byte) (t : State),
      parts.map Prod.snd = framesHandedOn bs s ∧ runBytes bs s = .next t ∧
      s.bufBytes ++ bs = parts.flatMap (fun p => p.1 ++ p.2.bytes) ++ gap ++ t.bufBytes

/-- R98, R99: AssembleNext takes bytes from the front until an A.LAST, returns that frame and leaves (Idle, 0); the
run goes on from there.
The spec marks R98 as derived. -/
def Obligations.AssembleNextTakesUpToOneFrame : Prop :=
  ∀ (bs rest : List Byte) (s t : State) (f : Frame), s.Inv → assembleNext bs s = some (f, rest, t) →
    ScanEmpty t ∧ t.Inv ∧ framesHandedOn bs s = f :: framesHandedOn rest t ∧
    ∃ used, bs = used ++ rest ∧ runBytes used s = .next t

/-- R175: a stream from Idle in which no `MARKER0` is directly followed by `MARKER1` puts nothing out, however long
it is: no command, no event, and Collecting is never entered.
The spec marks its handling of starvation as decision D18. -/
def Obligations.StarvedStreamsPutNothingOut : Prop :=
  ∀ (s : State) (N : List Byte), s.Inv → s.st = .idle → s.cfg.legal → noMarkerPair s.cfg N = true →
    ∃ t, runBytes N s = .next t ∧ t.st ≠ .collecting ∧ SameInputs s t ∧ SameOutputs s t ∧
      framesHandedOn N s = []

/-- R102, R104: noise without an adjacent marker pair, then a marked frame, from an Idle state: exactly that frame
is handed on, and the block is in (Idle, 0) after. With `REEVAL` false the noise must leave the state Idle.
The spec marks R102 as derived; its premise on the noise is 90_conflicts.md C6. -/
def Obligations.NoiseThenFrameHandsOnThatFrame : Prop :=
  ∀ (s : State) (N : List Byte) (F : Frame), s.Inv → s.st = .idle → s.cfg.legal →
    noMarkerPair s.cfg N = true → F.byte 0 = s.cfg.marker0 → F.byte 1 = s.cfg.marker1 →
    (s.cfg.reeval = true ∨ ∃ u, runBytes N s = .next u ∧ u.st = .idle) →
    framesHandedOn (N ++ F.bytes) s = [F] ∧
    ∃ t, runBytes (N ++ F.bytes) s = .next t ∧ ScanEmpty t ∧ SameInputs s t ∧
      t.cmds = s.cmds ++ frameCommands s.cfg F ∧ t.diags = s.diags ++ frameEvents s.cfg F

/-- R157, R47: a run over two sequences is the run over the first and then over the second; the loop, from a state
that meets the invariants, takes every byte of a finite input and then waits; and on any byte source, finite or
infinite, for every number of turns the loop goes on and has taken every byte of those positions, so that on an
infinite source it never ends. That a source's next byte arrives before each turn is log entry 22.
R157 is the spec's decision D19; the wait as a step is log entry 2. -/
def Obligations.RunsComposeAndConsumeAllInput : Prop :=
  (∀ (a b : List Byte) (s : State), runBytes (a ++ b) s = andThen (runBytes a s) (runBytes b)) ∧
  (∀ s : State, s.Inv → s.rst = false →
    ∃ t, Host.Core.run core s.input.length s = .next t ∧ t.input = [] ∧
      runBytes s.input { s with input := [] } = .next t ∧ step t = .next t) ∧
  (∀ (src : ByteSource) (n : Nat) (s : State), s.Inv → s.rst = false → s.input = [] →
    ∃ t, sourceRun src n s = .next t ∧ t.Inv ∧ t.input = [] ∧ runBytes (src.first n) s = .next t) ∧
  (∀ (l : List Byte) (n : Nat), (ByteSource.finite l).first n = l.take n) ∧
  (∀ (f : Nat → Byte) (n : Nat), (ByteSource.infinite f).first n = (List.range n).map f)

/-- R20, R28, R155, R33 (the last three marked by the spec as derived): what a byte does depends on the parameters and the scan state alone: the traces and the
undelivered input are not read. -/
def Obligations.OnlyTheScanStateCarriesOver : Prop :=
  ∀ (s₁ s₂ t₁ : State) (b : Byte), s₁.cfg = s₂.cfg → s₁.st = s₂.st → s₁.len = s₂.len → s₁.buf = s₂.buf →
    s₁.pend = [] → s₂.pend = [] → byteStep b s₁ = .next t₁ →
    ∃ (t₂ : State) (cs : List Command) (ds : List DiagEvent), byteStep b s₂ = .next t₂ ∧
      t₂.st = t₁.st ∧ t₂.len = t₁.len ∧ t₂.buf = t₁.buf ∧ t₂.pend = [] ∧ t₁.pend = [] ∧
      t₁.cmds = s₁.cmds ++ cs ∧ t₂.cmds = s₂.cmds ++ cs ∧
      t₁.diags = s₁.diags ++ ds ∧ t₂.diags = s₂.diags ++ ds

/-- R49, R176: over any run, whether the diagnostic sink is present changes nothing in the scan state or the
command trace.
HAS_DIAG is the spec's decision D11. -/
def Obligations.DiagnosticSinkIsObservationalOnly : Prop :=
  ∀ (bs : List Byte) (s t : State), runBytes bs s = .next t →
    ∃ t', runBytes bs { s with cfg := { s.cfg with hasDiag := false } } = .next t' ∧
      t'.st = t.st ∧ t'.len = t.len ∧ t'.buf = t.buf ∧ t'.pend = t.pend ∧ t'.cmds = t.cmds ∧
      t'.diags = s.diags

/-- R196, Q10: the false variant: that a Valid frame anywhere in the input causes its commands. A false
synchronisation before it can swallow it.
The spec marks R196 as derived. -/
def Obligations.EveryEmbeddedFrameIsObeyed : Prop :=
  ∀ (before after : List Byte) (F : Frame) (t : State), validate Config.hw F = .valid →
    runBytes (before ++ F.bytes ++ after) State.reset = .next t →
    frameCommands Config.hw F <:+: t.cmds

/-! The cycle-level binding -/

/-- R53: `in_ready` is 1 exactly when no emission is pending (and, log entry 16, reset is released); while
`in_valid` is 0 a ready block waits with all state unchanged.
The port is the spec's decision D13, D25. -/
def Obligations.ReadyExactlyWhenNothingIsPending : Prop :=
  (∀ (c c' : Cycle.CycleState) (i : Cycle.CycleIn) (o : Cycle.CycleOut),
    Cycle.clockEdge c i = .next (c', o) →
    (o.inReady = true ↔ i.rst = false ∧ c.cmdLatch = [] ∧ c.diagLatch = [])) ∧
  (∀ (c : Cycle.CycleState) (d : Byte), c.cmdLatch = [] → c.diagLatch = [] →
    Cycle.clockEdge c ⟨false, false, d⟩ = .next (c, ⟨true, none, none⟩))

/-- R30, R52: the latch never holds more than two commands and two events; and from such a state the clock runs on
for any number of edges, whatever the ports are driven with.
The latch is the spec's decision D14, its form log entry 16. -/
def Obligations.LatchHoldsAtMostOneFramesOutput : Prop :=
  (∀ (c c' : Cycle.CycleState) (i : Cycle.CycleIn) (o : Cycle.CycleOut), c.core.Inv →
    c.cmdLatch.length ≤ 2 → c.diagLatch.length ≤ 2 → Cycle.clockEdge c i = .next (c', o) →
    c'.core.Inv ∧ c'.cmdLatch.length ≤ 2 ∧ c'.diagLatch.length ≤ 2) ∧
  (∀ (ports : Nat → Cycle.CycleIn) (n : Nat) (c : Cycle.CycleState), c.core.Inv →
    c.cmdLatch.length ≤ 2 → c.diagLatch.length ≤ 2 →
    ∃ c' os, Cycle.runClock ports n c = .next (c', os) ∧ os.length = n ∧
      c'.core.Inv ∧ c'.cmdLatch.length ≤ 2 ∧ c'.diagLatch.length ≤ 2)

/-- R6: the cycle-level binding gives the same consumed bytes, commands and events as the byte-steps: over any run
without reset, what the ports carried followed by what the latch still holds is what the run over the
delivered bytes put out.
The pace of the binding is log entry 16. -/
def Obligations.CycleBindingRefinesTheByteSteps : Prop :=
  ∀ (is : List Cycle.CycleIn) (c c' : Cycle.CycleState) (os : List Cycle.CycleOut),
    (∀ i ∈ is, i.rst = false) → c.cmdLatch = [] → c.diagLatch = [] → c.core.cmds = [] → c.core.diags = [] →
    Cycle.runCycles is c = .next (c', os) →
    ∃ t, runBytes (Cycle.deliveredBytes is os) c.core = .next t ∧
      c'.core = { t with cmds := [], diags := [] } ∧
      t.cmds.map encodeCommand = os.filterMap Cycle.CycleOut.cmdWord ++ c'.cmdLatch.map encodeCommand ∧
      t.diags.map encodeEvent = os.filterMap Cycle.CycleOut.diagWord ++ c'.diagLatch.map encodeEvent
end

