-- ==== Sys2Proof/Laws/Decode.lean ====
section
/-! SUPPORT. The fields of the packed words. -/

namespace Sys2Proof

/-- The tag of a packed command word. -/
@[simp] theorem packCommand_tag (t : BitVec 3) (l r : BitVec 16) : (packCommand t l r).extractLsb' 32 3 = t := by
  unfold packCommand
  apply BitVec.eq_of_getLsbD_eq
  intro i hi
  simp only [BitVec.getLsbD_extractLsb', BitVec.getLsbD_append, hi, decide_true, Bool.true_and]
  simp [show ¬ 32 + i < 16 by omega, show ¬ 32 + i - 16 < 16 by omega]
  congr 1
  omega

/-- The left-side duty of a packed command word. -/
@[simp] theorem packCommand_dutyL (t : BitVec 3) (l r : BitVec 16) : (packCommand t l r).extractLsb' 16 16 = l := by
  unfold packCommand
  apply BitVec.eq_of_getLsbD_eq
  intro i hi
  simp only [BitVec.getLsbD_extractLsb', BitVec.getLsbD_append, hi, decide_true, Bool.true_and]
  simp [hi]

/-- The right-side duty of a packed command word. -/
@[simp] theorem packCommand_dutyR (t : BitVec 3) (l r : BitVec 16) : (packCommand t l r).extractLsb' 0 16 = r := by
  unfold packCommand
  apply BitVec.eq_of_getLsbD_eq
  intro i hi
  simp only [BitVec.getLsbD_extractLsb', BitVec.getLsbD_append, hi, decide_true, Bool.true_and]
  simp [hi]

/-- A command word is its three fields packed. -/
theorem packCommand_fields (w : BitVec 35) :
    packCommand (w.extractLsb' 32 3) (w.extractLsb' 16 16) (w.extractLsb' 0 16) = w := by
  unfold packCommand
  apply BitVec.eq_of_getLsbD_eq
  intro i hi
  simp only [BitVec.getLsbD_extractLsb', BitVec.getLsbD_append]
  by_cases h1 : i < 16
  · simp [h1]
  · by_cases h2 : i - 16 < 16
    · simp [h1, h2, show 16 + (i - 16) = i by omega]
    · simp [h1, h2, show 32 + (i - 16 - 16) = i by omega, show i - 16 - 16 < 3 by omega]

end Sys2Proof
end

