-- ==== Sys2Proof/Laws/Memory.lean ====
section
/-! SUPPORT. The laws of the frame buffer: read after write, the canonical form is kept, buffers of consecutive bytes. -/

namespace Sys2Proof.Machine

@[simp] theorem read_nil (a : Nat) : Memory.read [] a = none := rfl

/-- A read after a write of the same offset gives the byte written. -/
@[simp] theorem read_write_same (m : Memory) (a : Nat) (v : Byte) : (m.write a v).read a = some v := by
  induction m with
  | nil => simp [Memory.write, Memory.read]
  | cons c m ih =>
    obtain ⟨k, u⟩ := c
    simp only [Memory.write]
    split
    · simp [Memory.read]
    · split
      · simp [Memory.read]
      · have : k ≠ a := by omega
        simp [Memory.read, this, ih]

/-- A write leaves every other offset as it was. -/
theorem read_write_other (m : Memory) {a b : Nat} (v : Byte) (h : b ≠ a) :
    (m.write a v).read b = m.read b := by
  induction m with
  | nil => simp [Memory.write, Memory.read, h.symm]
  | cons c m ih =>
    obtain ⟨k, u⟩ := c
    simp only [Memory.write]
    split
    · simp [Memory.read, h.symm]
    · split
      · next h2 => simp [Memory.read, h.symm, ← h2]
      · simp [Memory.read, ih]

/-- A canonical buffer stays one without its first cell. -/
theorem wf_tail {c : Nat × Byte} {m : Memory} (h : Memory.wf (c :: m) = true) : Memory.wf m = true := by
  cases m with
  | nil => rfl
  | cons d m => simp only [Memory.wf, Bool.and_eq_true] at h; exact h.2

/-- Consing a smaller offset on a canonical buffer. -/
theorem wf_cons {k : Nat} {u : Byte} {m : Memory} (hk : k < frameLen) (hm : Memory.wf m = true)
    (hlt : ∀ d ∈ m.head?, k < d.1) : Memory.wf ((k, u) :: m) = true := by
  cases m with
  | nil => simpa [Memory.wf] using hk
  | cons d m => simpa [Memory.wf, hm] using hlt d (by simp)

/-- The first offset of a canonical buffer is below what follows it, and inside the buffer. -/
theorem wf_head {k : Nat} {u : Byte} {m : Memory} (h : Memory.wf ((k, u) :: m) = true) :
    k < frameLen ∧ ∀ d ∈ m.head?, k < d.1 := by
  induction m generalizing k u with
  | nil => simpa [Memory.wf] using h
  | cons d m ih =>
    have hd := ih (wf_tail h)
    simp only [Memory.wf, Bool.and_eq_true, decide_eq_true_eq] at h
    exact ⟨by omega, by simpa using h.1⟩

/-- The first offset after a write. -/
theorem head_write (m : Memory) (a : Nat) (v : Byte) (k : Nat) (hka : k < a) (h : ∀ d ∈ m.head?, k < d.1) :
    ∀ d ∈ (m.write a v).head?, k < d.1 := by
  cases m with
  | nil => simpa [Memory.write] using hka
  | cons c m =>
    have hc : k < c.1 := h c (by simp)
    simp only [Memory.write]
    split
    · simpa using hka
    · split <;> simpa using by omega

/-- Every write inside the buffer keeps the canonical form. -/
theorem write_wf (m : Memory) (a : Nat) (v : Byte) (ha : a < frameLen) (h : Memory.wf m = true) :
    Memory.wf (m.write a v) = true := by
  induction m with
  | nil => simpa [Memory.write, Memory.wf] using ha
  | cons c m ih =>
    obtain ⟨k, u⟩ := c
    obtain ⟨hk, hm⟩ := wf_head h
    simp only [Memory.write]
    split
    · exact wf_cons ha h (by simpa)
    · split
      · next h2 => exact wf_cons ha (wf_tail h) (by rw [h2]; exact hm)
      · exact wf_cons hk (ih (wf_tail h)) (head_write m a v k (by omega) hm)

/-- The offsets of consecutive bytes. -/
@[simp] theorem map_fst_ofBytes (k : Nat) (l : List Byte) :
    (Memory.ofBytes k l).map Prod.fst = List.range' k l.length := by
  induction l generalizing k with
  | nil => rfl
  | cons b l ih => simp [Memory.ofBytes, ih, List.range'_succ]

/-- Reading consecutive bytes. -/
@[simp] theorem read_ofBytes (k : Nat) (l : List Byte) (i : Nat) :
    (Memory.ofBytes k l).read (k + i) = l[i]? := by
  induction l generalizing k i with
  | nil => rfl
  | cons b l ih =>
    cases i with
    | zero => simp [Memory.ofBytes, Memory.read]
    | succ i =>
      have := ih (k + 1) i
      simp only [Memory.ofBytes, Memory.read, show k ≠ k + (i + 1) by omega, if_false, List.getElem?_cons_succ]
      rw [← this]; congr 1; omega

/-- A buffer whose offsets are consecutive is a buffer of consecutive bytes. -/
theorem eq_ofBytes_of_fst (m : Memory) (k : Nat) (h : m.map Prod.fst = List.range' k m.length) :
    m = Memory.ofBytes k (m.map Prod.snd) := by
  induction m generalizing k with
  | nil => rfl
  | cons c m ih =>
    obtain ⟨j, u⟩ := c
    simp only [List.map_cons, List.length_cons, List.range'_succ, List.cons.injEq] at h
    simp only [List.map_cons, Memory.ofBytes]
    rw [← ih (k + 1) h.2, h.1]

/-- Writing the next offset appends. -/
theorem write_ofBytes_end (k : Nat) (l : List Byte) (v : Byte) :
    (Memory.ofBytes k l).write (k + l.length) v = Memory.ofBytes k (l ++ [v]) := by
  induction l generalizing k with
  | nil => simp [Memory.ofBytes, Memory.write]
  | cons b l ih =>
    have := ih (k + 1)
    simp only [Memory.ofBytes, Memory.write, List.length_cons, List.cons_append,
      show ¬ k + (l.length + 1) < k by omega, show ¬ k + (l.length + 1) = k by omega, if_false]
    rw [← this, show k + (l.length + 1) = k + 1 + l.length by omega]

/-- Buffers of consecutive bytes inside 0..14 are canonical. -/
theorem ofBytes_wf (k : Nat) (l : List Byte) (h : k + l.length ≤ frameLen) :
    Memory.wf (Memory.ofBytes k l) = true := by
  induction l generalizing k with
  | nil => rfl
  | cons b l ih =>
    simp only [List.length_cons] at h
    refine wf_cons (by omega) (ih (k + 1) (by omega)) ?_
    cases l <;> simp [Memory.ofBytes]

/-- A buffer with the offsets 0 to n − 1 (R23) is a buffer of n bytes. -/
theorem dense_eq_ofBytes {m : Memory} {n : Nat} (h : m.map Prod.fst = List.range n) :
    m = Memory.ofBytes 0 (m.map Prod.snd) ∧ m.length = n := by
  have hl : m.length = n := by simpa using congrArg List.length h
  refine ⟨eq_ofBytes_of_fst m 0 ?_, hl⟩
  rw [h, hl, List.range_eq_range']

end Sys2Proof.Machine
end

