-- ==== Sys2Proof/Laws/State.lean ====
section
/-! SUPPORT. For each update of the state, what each field holds after it: the simp set by which no later proof unfolds a
record update. -/

namespace Sys2Proof.Machine

/-! `setScan` -/

@[simp] theorem setScan_st (q : ScanState) (n : Nat) (s : State) : (s.setScan q n).st = q := rfl
@[simp] theorem setScan_len (q : ScanState) (n : Nat) (s : State) : (s.setScan q n).len = n := rfl
@[simp] theorem setScan_buf (q : ScanState) (n : Nat) (s : State) : (s.setScan q n).buf = s.buf := rfl
@[simp] theorem setScan_pend (q : ScanState) (n : Nat) (s : State) : (s.setScan q n).pend = s.pend := rfl
@[simp] theorem setScan_cfg (q : ScanState) (n : Nat) (s : State) : (s.setScan q n).cfg = s.cfg := rfl
@[simp] theorem setScan_rst (q : ScanState) (n : Nat) (s : State) : (s.setScan q n).rst = s.rst := rfl
@[simp] theorem setScan_input (q : ScanState) (n : Nat) (s : State) : (s.setScan q n).input = s.input := rfl
@[simp] theorem setScan_cmds (q : ScanState) (n : Nat) (s : State) : (s.setScan q n).cmds = s.cmds := rfl
@[simp] theorem setScan_diags (q : ScanState) (n : Nat) (s : State) : (s.setScan q n).diags = s.diags := rfl

/-! `bufferReset` -/

@[simp] theorem bufferReset_st (s : State) : (s.bufferReset).st = .idle := rfl
@[simp] theorem bufferReset_len (s : State) : (s.bufferReset).len = 0 := rfl
@[simp] theorem bufferReset_buf (s : State) : (s.bufferReset).buf = [] := rfl
@[simp] theorem bufferReset_pend (s : State) : (s.bufferReset).pend = s.pend := rfl
@[simp] theorem bufferReset_cfg (s : State) : (s.bufferReset).cfg = s.cfg := rfl
@[simp] theorem bufferReset_rst (s : State) : (s.bufferReset).rst = s.rst := rfl
@[simp] theorem bufferReset_input (s : State) : (s.bufferReset).input = s.input := rfl
@[simp] theorem bufferReset_cmds (s : State) : (s.bufferReset).cmds = s.cmds := rfl
@[simp] theorem bufferReset_diags (s : State) : (s.bufferReset).diags = s.diags := rfl

/-! `resetEvent` -/

@[simp] theorem resetEvent_st (s : State) : (s.resetEvent).st = .idle := rfl
@[simp] theorem resetEvent_len (s : State) : (s.resetEvent).len = 0 := rfl
@[simp] theorem resetEvent_buf (s : State) : (s.resetEvent).buf = [] := rfl
@[simp] theorem resetEvent_pend (s : State) : (s.resetEvent).pend = [] := rfl
@[simp] theorem resetEvent_cfg (s : State) : (s.resetEvent).cfg = s.cfg := rfl
@[simp] theorem resetEvent_rst (s : State) : (s.resetEvent).rst = s.rst := rfl
@[simp] theorem resetEvent_input (s : State) : (s.resetEvent).input = s.input := rfl
@[simp] theorem resetEvent_cmds (s : State) : (s.resetEvent).cmds = s.cmds := rfl
@[simp] theorem resetEvent_diags (s : State) : (s.resetEvent).diags = s.diags := rfl

/-! `applyCmd` -/

@[simp] theorem applyCmd_st (c : Command) (s : State) : (s.applyCmd c).st = s.st := rfl
@[simp] theorem applyCmd_len (c : Command) (s : State) : (s.applyCmd c).len = s.len := rfl
@[simp] theorem applyCmd_buf (c : Command) (s : State) : (s.applyCmd c).buf = s.buf := rfl
@[simp] theorem applyCmd_pend (c : Command) (s : State) : (s.applyCmd c).pend = s.pend := rfl
@[simp] theorem applyCmd_cfg (c : Command) (s : State) : (s.applyCmd c).cfg = s.cfg := rfl
@[simp] theorem applyCmd_rst (c : Command) (s : State) : (s.applyCmd c).rst = s.rst := rfl
@[simp] theorem applyCmd_input (c : Command) (s : State) : (s.applyCmd c).input = s.input := rfl
@[simp] theorem applyCmd_cmds (c : Command) (s : State) : (s.applyCmd c).cmds = s.cmds ++ [c] := rfl
@[simp] theorem applyCmd_diags (c : Command) (s : State) : (s.applyCmd c).diags = s.diags := rfl

/-! `emit` -/

@[simp] theorem emit_st (c : Command) (s : State) : (s.emit c).st = s.st := rfl
@[simp] theorem emit_len (c : Command) (s : State) : (s.emit c).len = s.len := rfl
@[simp] theorem emit_buf (c : Command) (s : State) : (s.emit c).buf = s.buf := rfl
@[simp] theorem emit_pend (c : Command) (s : State) : (s.emit c).pend = s.pend ++ [c] := rfl
@[simp] theorem emit_cfg (c : Command) (s : State) : (s.emit c).cfg = s.cfg := rfl
@[simp] theorem emit_rst (c : Command) (s : State) : (s.emit c).rst = s.rst := rfl
@[simp] theorem emit_input (c : Command) (s : State) : (s.emit c).input = s.input := rfl
@[simp] theorem emit_cmds (c : Command) (s : State) : (s.emit c).cmds = s.cmds := rfl
@[simp] theorem emit_diags (c : Command) (s : State) : (s.emit c).diags = s.diags := rfl

/-! `mapSample` -/

@[simp] theorem mapSample_st (smp : Sample) (s : State) : (s.mapSample smp).st = s.st := rfl
@[simp] theorem mapSample_len (smp : Sample) (s : State) : (s.mapSample smp).len = s.len := rfl
@[simp] theorem mapSample_buf (smp : Sample) (s : State) : (s.mapSample smp).buf = s.buf := rfl
@[simp] theorem mapSample_pend (smp : Sample) (s : State) : (s.mapSample smp).pend = mapCommands s.cfg smp := rfl
@[simp] theorem mapSample_cfg (smp : Sample) (s : State) : (s.mapSample smp).cfg = s.cfg := rfl
@[simp] theorem mapSample_rst (smp : Sample) (s : State) : (s.mapSample smp).rst = s.rst := rfl
@[simp] theorem mapSample_input (smp : Sample) (s : State) : (s.mapSample smp).input = s.input := rfl
@[simp] theorem mapSample_cmds (smp : Sample) (s : State) : (s.mapSample smp).cmds = s.cmds := rfl
@[simp] theorem mapSample_diags (smp : Sample) (s : State) : (s.mapSample smp).diags = s.diags := rfl

/-! `diag` -/

@[simp] theorem diag_st (e : DiagEvent) (s : State) : (s.diag e).st = s.st := by unfold State.diag; split <;> simp_all
@[simp] theorem diag_len (e : DiagEvent) (s : State) : (s.diag e).len = s.len := by unfold State.diag; split <;> simp_all
@[simp] theorem diag_buf (e : DiagEvent) (s : State) : (s.diag e).buf = s.buf := by unfold State.diag; split <;> simp_all
@[simp] theorem diag_pend (e : DiagEvent) (s : State) : (s.diag e).pend = s.pend := by unfold State.diag; split <;> simp_all
@[simp] theorem diag_cfg (e : DiagEvent) (s : State) : (s.diag e).cfg = s.cfg := by unfold State.diag; split <;> simp_all
@[simp] theorem diag_rst (e : DiagEvent) (s : State) : (s.diag e).rst = s.rst := by unfold State.diag; split <;> simp_all
@[simp] theorem diag_input (e : DiagEvent) (s : State) : (s.diag e).input = s.input := by unfold State.diag; split <;> simp_all
@[simp] theorem diag_cmds (e : DiagEvent) (s : State) : (s.diag e).cmds = s.cmds := by unfold State.diag; split <;> simp_all
@[simp] theorem diag_diags (e : DiagEvent) (s : State) : (s.diag e).diags = s.diags ++ (if s.cfg.hasDiag then [e] else []) := by unfold State.diag; split <;> simp_all

/-! `raiseException` -/

@[simp] theorem raiseException_st (e : FrameException) (s : State) : (s.raiseException e).st = s.st := by simp [State.raiseException]
@[simp] theorem raiseException_len (e : FrameException) (s : State) : (s.raiseException e).len = s.len := by simp [State.raiseException]
@[simp] theorem raiseException_buf (e : FrameException) (s : State) : (s.raiseException e).buf = s.buf := by simp [State.raiseException]
@[simp] theorem raiseException_pend (e : FrameException) (s : State) : (s.raiseException e).pend = s.pend := by simp [State.raiseException]
@[simp] theorem raiseException_cfg (e : FrameException) (s : State) : (s.raiseException e).cfg = s.cfg := by simp [State.raiseException]
@[simp] theorem raiseException_rst (e : FrameException) (s : State) : (s.raiseException e).rst = s.rst := by simp [State.raiseException]
@[simp] theorem raiseException_input (e : FrameException) (s : State) : (s.raiseException e).input = s.input := by simp [State.raiseException]
@[simp] theorem raiseException_cmds (e : FrameException) (s : State) : (s.raiseException e).cmds = s.cmds := by simp [State.raiseException]
@[simp] theorem raiseException_diags (e : FrameException) (s : State) : (s.raiseException e).diags = s.diags ++ (if s.cfg.hasDiag then [exceptionEvent e] else []) := by simp [State.raiseException]

/-! `handOut` -/

@[simp] theorem handOut_st (c : Command) (s : State) : (s.handOut c).st = s.st := by simp [State.handOut]
@[simp] theorem handOut_len (c : Command) (s : State) : (s.handOut c).len = s.len := by simp [State.handOut]
@[simp] theorem handOut_buf (c : Command) (s : State) : (s.handOut c).buf = s.buf := by simp [State.handOut]
@[simp] theorem handOut_pend (c : Command) (s : State) : (s.handOut c).pend = s.pend := by simp [State.handOut]
@[simp] theorem handOut_cfg (c : Command) (s : State) : (s.handOut c).cfg = s.cfg := by simp [State.handOut]
@[simp] theorem handOut_rst (c : Command) (s : State) : (s.handOut c).rst = s.rst := by simp [State.handOut]
@[simp] theorem handOut_input (c : Command) (s : State) : (s.handOut c).input = s.input := by simp [State.handOut]
@[simp] theorem handOut_cmds (c : Command) (s : State) : (s.handOut c).cmds = s.cmds ++ [c] := by simp [State.handOut]
@[simp] theorem handOut_diags (c : Command) (s : State) : (s.handOut c).diags = s.diags ++ (if s.cfg.hasDiag then [.cmd c.tag] else []) := by unfold State.handOut; rw [diag_diags]; rfl

/-! `placeBytes` -/

@[simp] theorem placeBytes_st (q : ScanState) (got l : List Byte) (s : State) : (s.placeBytes q got l).st = q := rfl
@[simp] theorem placeBytes_len (q : ScanState) (got l : List Byte) (s : State) : (s.placeBytes q got l).len = got.length := rfl
@[simp] theorem placeBytes_buf (q : ScanState) (got l : List Byte) (s : State) : (s.placeBytes q got l).buf = Memory.ofBytes 0 got := rfl
@[simp] theorem placeBytes_pend (q : ScanState) (got l : List Byte) (s : State) : (s.placeBytes q got l).pend = [] := rfl
@[simp] theorem placeBytes_cfg (q : ScanState) (got l : List Byte) (s : State) : (s.placeBytes q got l).cfg = s.cfg := rfl
@[simp] theorem placeBytes_rst (q : ScanState) (got l : List Byte) (s : State) : (s.placeBytes q got l).rst = false := rfl
@[simp] theorem placeBytes_input (q : ScanState) (got l : List Byte) (s : State) : (s.placeBytes q got l).input = l ++ s.input := rfl
@[simp] theorem placeBytes_cmds (q : ScanState) (got l : List Byte) (s : State) : (s.placeBytes q got l).cmds = s.cmds := rfl
@[simp] theorem placeBytes_diags (q : ScanState) (got l : List Byte) (s : State) : (s.placeBytes q got l).diags = s.diags := rfl

/-! `placeCommand` -/

@[simp] theorem placeCommand_st (c : Command) (s : State) : (s.placeCommand c).st = s.st := rfl
@[simp] theorem placeCommand_len (c : Command) (s : State) : (s.placeCommand c).len = s.len := rfl
@[simp] theorem placeCommand_buf (c : Command) (s : State) : (s.placeCommand c).buf = s.buf := rfl
@[simp] theorem placeCommand_pend (c : Command) (s : State) : (s.placeCommand c).pend = [c] := rfl
@[simp] theorem placeCommand_cfg (c : Command) (s : State) : (s.placeCommand c).cfg = s.cfg := rfl
@[simp] theorem placeCommand_rst (c : Command) (s : State) : (s.placeCommand c).rst = false := rfl
@[simp] theorem placeCommand_input (c : Command) (s : State) : (s.placeCommand c).input = s.input := rfl
@[simp] theorem placeCommand_cmds (c : Command) (s : State) : (s.placeCommand c).cmds = s.cmds := rfl
@[simp] theorem placeCommand_diags (c : Command) (s : State) : (s.placeCommand c).diags = s.diags := rfl

end Sys2Proof.Machine
end

