-- ==== Sys2Proof/Laws/Ops.lean ====
section
/-! SUPPORT. One lemma per shared operation: everything it can do. -/

namespace Sys2Proof.Machine

@[simp] theorem andThen_next (s : State) (f : State → Result) : andThen (.next s) f = f s := rfl
@[simp] theorem andThen_fault (r : Fault) (f : State → Result) : andThen (.fault r) f = .fault r := rfl
@[simp] theorem andThen_refused (r : Refusal) (f : State → Result) : andThen (.refused r) f = .refused r := rfl

/-- From a sequence that goes on, its first part goes on. -/
theorem andThen_eq_next {o : Result} {f : State → Result} {t : State} (h : andThen o f = .next t) :
    ∃ s, o = .next s ∧ f s = .next t := by
  cases o with
  | next s => exact ⟨s, rfl, h⟩
  | fault r => cases h
  | refused r => cases h

theorem andThen_assoc (o : Result) (f g : State → Result) :
    andThen (andThen o f) g = andThen o (fun s => andThen (f s) g) := by
  cases o <;> rfl

/-- A store inside 0..14 goes on. -/
theorem store_next (s : State) {off : Nat} (v : Byte) (h : off < frameLen) :
    s.store off v = .next { s with buf := s.buf.write off v } := if_pos h

/-- A store outside 0..14 stops by name (R41). -/
theorem store_fault (s : State) {off : Nat} (v : Byte) (h : ¬ off < frameLen) :
    s.store off v = .fault (.noSuchOffset off) := if_neg h

/-- A list of fifteen bytes as a frame. -/
theorem ofList?_eq_some {l : List Byte} {f : Frame} : Frame.ofList? l = some f ↔ f.bytes = l := by
  unfold Frame.ofList?
  split
  · next h =>
    constructor
    · intro e; cases e; rfl
    · intro e; cases f; cases e; rfl
  · next h =>
    constructor
    · intro e; cases e
    · intro e; exact absurd (e ▸ f.length_eq) h

/-- Reading offsets one after the other from consecutive bytes gives the bytes. -/
theorem filterMap_read_ofBytes (l : List Byte) (n : Nat) :
    (List.range n).filterMap (Memory.ofBytes 0 l).read = l.take n := by
  induction n with
  | zero => simp
  | succ n ih =>
    have hr : (Memory.ofBytes 0 l).read n = l[n]? := by simpa using read_ofBytes 0 l n
    rw [List.range_succ, List.filterMap_append, ih, List.take_add_one]
    congr 1
    cases h : l[n]? <;> simp [hr, h]

/-- The frame of a buffer of fifteen consecutive bytes. -/
theorem bufferFrame?_ofBytes (s : State) (f : Frame) (h : s.buf = Memory.ofBytes 0 f.bytes) :
    s.bufferFrame? = some f := by
  unfold State.bufferFrame?
  rw [ofList?_eq_some, h, filterMap_read_ofBytes, List.take_of_length_le (by rw [f.length_eq]; decide)]

/-- Handing out a list of commands: the list on the command trace, its events on the diagnostic trace (R152). -/
theorem foldl_handOut (cs : List Command) (s : State) :
    cs.foldl State.handOut s =
      { s with cmds := s.cmds ++ cs, diags := s.diags ++ eventsOf s.cfg cs } := by
  induction cs generalizing s with
  | nil => simp [eventsOf]
  | cons c cs ih =>
    rw [List.foldl_cons, ih]
    cases s
    rename_i st len buf pend cfg rst input cmds diags
    cases hd : cfg.hasDiag <;> simp [State.handOut, State.applyCmd, State.diag, eventsOf, hd]

/-- `SINK` in one line (R152). -/
theorem sink_eq (s : State) :
    s.sink = { s with pend := [], cmds := s.cmds ++ s.pend, diags := s.diags ++ eventsOf s.cfg s.pend } := by
  unfold State.sink
  rw [foldl_handOut]

/-- The Valid arm of PROCESS in one line (R151). -/
theorem acceptFrame_eq (f : Frame) (s : State) :
    s.acceptFrame f =
      { s with pend := [], cmds := s.cmds ++ mapCommands s.cfg (decodeSampleOf f),
               diags := s.diags ++ eventsOf s.cfg (mapCommands s.cfg (decodeSampleOf f)) } := by
  unfold State.acceptFrame
  rw [sink_eq]; rfl

/-- The latch after PROCESS: untouched by a rejected frame, empty after a valid one. -/
theorem processFrame_pend (f : Frame) (s : State) (h : s.pend = []) : (s.processFrame f).pend = [] := by
  unfold State.processFrame
  split
  · simpa using h
  · simpa using h
  · rw [acceptFrame_eq]

/-- `PROCESS` in one line when nothing is pending (R151, R173, R174): only the two traces grow. -/
theorem processFrame_eq (f : Frame) (s : State) (h : s.pend = []) :
    s.processFrame f =
      { s with cmds := s.cmds ++ frameCommands s.cfg f, diags := s.diags ++ frameEvents s.cfg f } := by
  obtain ⟨st, len, buf, pend, cfg, rst, input, cmds, diags⟩ := s
  simp only at h; subst h
  unfold State.processFrame frameCommands frameEvents
  cases hv : validate cfg f <;> simp only
  · rw [acceptFrame_eq]
  · cases hd : cfg.hasDiag <;> simp [State.raiseException, State.diag, exceptionEvent, hd]
  · cases hd : cfg.hasDiag <;> simp [State.raiseException, State.diag, exceptionEvent, hd]

/-- `PROCESS` from any state: the traces grow by what the frame causes and only the latch may differ besides. -/
theorem processFrame_cases (f : Frame) (s : State) :
    ∃ p, s.processFrame f =
      { s with pend := p, cmds := s.cmds ++ frameCommands s.cfg f, diags := s.diags ++ frameEvents s.cfg f } := by
  unfold State.processFrame frameCommands frameEvents
  cases hv : validate s.cfg f <;> simp only
  · rw [acceptFrame_eq]; exact ⟨_, rfl⟩
  · refine ⟨s.pend, ?_⟩
    cases hd : s.cfg.hasDiag <;> simp [State.raiseException, State.diag, exceptionEvent, hd]
  · refine ⟨s.pend, ?_⟩
    cases hd : s.cfg.hasDiag <;> simp [State.raiseException, State.diag, exceptionEvent, hd]

end Sys2Proof.Machine
end

