-- ==== Sys2Proof/Laws/PerInstr.lean ====
section
/-! SUPPORT. Statements about every operation as syntax, one lemma per constructor. -/

/-- The word of an operation is a word of its row's format (R60, R66, R68, R70, R71). -/
def Sys2Proof.Laws.EncodeFormat.Statement (i : Sys2Proof.Instr) : Prop :=
  ∀ cfg : Sys2Proof.Config, (Sys2Proof.encode cfg i).format = i.format

namespace Sys2Proof.Laws.EncodeFormat

theorem aSync0 : Statement .aSync0 := fun _ => rfl
theorem aDrop (b : Byte) : Statement (.aDrop b) := fun _ => rfl
theorem aSync1 : Statement .aSync1 := fun _ => rfl
theorem aResync : Statement .aResync := fun _ => rfl
theorem aMiss (b : Byte) : Statement (.aMiss b) := fun _ => rfl
theorem aAppend (b : Byte) : Statement (.aAppend b) := fun _ => rfl
theorem aLast (b : Byte) : Statement (.aLast b) := fun _ => rfl
theorem fStruct (f : Frame) : Statement (.fStruct f) := fun _ => rfl
theorem fCksum (f : Frame) : Statement (.fCksum f) := fun _ => rfl
theorem fValid (f : Frame) : Statement (.fValid f) := fun _ => rfl
theorem mFwd (smp : Sample) : Statement (.mFwd smp) := fun _ => rfl
theorem mBwd (smp : Sample) : Statement (.mBwd smp) := fun _ => rfl
theorem mRight (smp : Sample) : Statement (.mRight smp) := fun _ => rfl
theorem mLeft (smp : Sample) : Statement (.mLeft smp) := fun _ => rfl
theorem mStop (smp : Sample) : Statement (.mStop smp) := fun _ => rfl
theorem cmdStop : Statement .cmdStop := fun _ => rfl
theorem cmdForward : Statement .cmdForward := fun _ => rfl
theorem cmdBackward : Statement .cmdBackward := fun _ => rfl
theorem cmdLeft : Statement .cmdLeft := fun _ => rfl
theorem cmdRight : Statement .cmdRight := fun _ => rfl
theorem eStruct : Statement .eStruct := fun _ => rfl
theorem eCksum : Statement .eCksum := fun _ => rfl
theorem eCmdStop : Statement .eCmdStop := fun _ => rfl
theorem eCmdForward : Statement .eCmdForward := fun _ => rfl
theorem eCmdBackward : Statement .eCmdBackward := fun _ => rfl
theorem eCmdLeft : Statement .eCmdLeft := fun _ => rfl
theorem eCmdRight : Statement .eCmdRight := fun _ => rfl

end Sys2Proof.Laws.EncodeFormat
end

