-- ==== Sys2Proof/Laws/Step.lean ====
section
/-! SUPPORT. What a step and a byte-step can do, said once: inversion lemmas the invariants are derived from. -/

namespace Sys2Proof.Machine

/-- One step is one of four things: reset asserted, something pending handed out, waiting, or a byte-step. -/
theorem step_cases {s t : State} (h : step s = .next t) :
    (s.rst = true ∧ t = s.resetEvent) ∨
    (s.rst = false ∧ s.pend ≠ [] ∧ t = s.sink) ∨
    (s.rst = false ∧ s.pend = [] ∧ s.input = [] ∧ t = s) ∨
    (∃ b rest, s.rst = false ∧ s.pend = [] ∧ s.input = b :: rest ∧
      byteStep b { s with input := rest } = .next t) := by
  unfold step pipelineStep at h
  cases hr : s.rst
  · cases hp : s.pend with
    | nil =>
      simp only [hr, hp, List.isEmpty_nil, if_true] at h
      cases hi : s.input with
      | nil => exact .inr (.inr (.inl ⟨rfl, rfl, rfl, by rw [hi] at h; cases h; rfl⟩))
      | cons b rest => exact .inr (.inr (.inr ⟨b, rest, rfl, rfl, rfl, by rw [hi] at h; exact h⟩))
    | cons c cs =>
      simp only [hr, hp, List.isEmpty_cons] at h
      exact .inr (.inl ⟨rfl, by simp, by cases h; rfl⟩)
  · simp only [hr, if_true] at h
    exact .inl ⟨rfl, by cases h; rfl⟩

/-- The seven operations, each as an answer, when they go on (R91 to R97). -/
theorem execASync0_eq (s : State) :
    execASync0 s = .next { s with st := .matched, len := 1, buf := s.buf.write 0 s.cfg.marker0 } := by
  unfold execASync0; rw [store_next s _ (by decide)]; rfl

theorem execASync1_eq (s : State) :
    execASync1 s = .next { s with st := .collecting, len := 2, buf := s.buf.write 1 s.cfg.marker1 } := by
  unfold execASync1; rw [store_next s _ (by decide)]; rfl

theorem execAResync_eq (s : State) :
    execAResync s = .next { s with st := .matched, len := 1, buf := [(0, s.cfg.marker0)] } := by
  unfold execAResync; rw [store_next _ _ (by decide)]; rfl

theorem execAAppend_eq (s : State) (b : Byte) (h : s.len < frameLen) :
    execAAppend b s = .next { s with st := .collecting, len := s.len + 1, buf := s.buf.write s.len b } := by
  unfold execAAppend; rw [store_next s _ h]; rfl

/-- A.LAST takes the frame of the buffer with the byte at offset 14, or stops by name (R97, R12). -/
theorem execALast_eq (s : State) (b : Byte) :
    execALast b s = match State.bufferFrame? { s with buf := s.buf.write offCk b } with
      | none => .fault .frameIncomplete
      | some f => .next (s.bufferReset.processFrame f) := by
  unfold execALast; rw [store_next s _ (by decide)]; rfl

/-- A byte-step that goes on is one of the seven operations (R90). -/
theorem byteStep_cases {b : Byte} {s t : State} (h : byteStep b s = .next t) :
    (s.st = .idle ∧ b = s.cfg.marker0 ∧
      t = { s with st := .matched, len := 1, buf := s.buf.write 0 s.cfg.marker0 }) ∨
    (s.st = .idle ∧ b ≠ s.cfg.marker0 ∧ t = s) ∨
    (s.st = .matched ∧ b = s.cfg.marker1 ∧
      t = { s with st := .collecting, len := 2, buf := s.buf.write 1 s.cfg.marker1 }) ∨
    (s.st = .matched ∧ b ≠ s.cfg.marker1 ∧ s.cfg.reeval = true ∧ b = s.cfg.marker0 ∧
      t = { s with st := .matched, len := 1, buf := [(0, s.cfg.marker0)] }) ∨
    (s.st = .matched ∧ b ≠ s.cfg.marker1 ∧ ¬(s.cfg.reeval = true ∧ b = s.cfg.marker0) ∧
      t = s.bufferReset) ∨
    (s.st = .collecting ∧ s.len < 14 ∧
      t = { s with st := .collecting, len := s.len + 1, buf := s.buf.write s.len b }) ∨
    (s.st = .collecting ∧ ¬ s.len < 14 ∧ ∃ f,
      State.bufferFrame? { s with buf := s.buf.write offCk b } = some f ∧
      t = s.bufferReset.processFrame f) := by
  unfold byteStep decodeByte at h
  cases hs : s.st <;> simp only [hs] at h
  · split at h
    · next hb => exact .inl ⟨rfl, hb, by rw [exec, execASync0_eq] at h; cases h; rfl⟩
    · next hb => exact .inr (.inl ⟨rfl, hb, by rw [exec, execADrop] at h; cases h; rfl⟩)
  · split at h
    · next hb => exact .inr (.inr (.inl ⟨rfl, hb, by rw [exec, execASync1_eq] at h; cases h; rfl⟩))
    · next hb =>
      split at h
      · next hr =>
        exact .inr (.inr (.inr (.inl ⟨rfl, hb, hr.1, hr.2, by rw [exec, execAResync_eq] at h; cases h; rfl⟩)))
      · next hr =>
        exact .inr (.inr (.inr (.inr (.inl ⟨rfl, hb, hr, by rw [exec, execAMiss] at h; cases h; rfl⟩))))
  · split at h
    · next hl =>
      refine .inr (.inr (.inr (.inr (.inr (.inl ⟨rfl, hl, ?_⟩)))))
      rw [exec, execAAppend_eq s b (by unfold frameLen; omega)] at h
      cases h; rfl
    · next hl =>
      refine .inr (.inr (.inr (.inr (.inr (.inr ⟨rfl, hl, ?_⟩)))))
      rw [exec, execALast_eq] at h
      cases hf : State.bufferFrame? { s with buf := s.buf.write offCk b } with
      | none => rw [hf] at h; cases h
      | some f => exact ⟨f, hf, by rw [hf] at h; cases h; rfl⟩

/-- The first positions of a finite source are its first bytes. -/
theorem finite_first (l : List Byte) (n : Nat) : (ByteSource.finite l).first n = l.take n := by
  induction n with
  | zero => simp [ByteSource.first]
  | succ n ih =>
    unfold ByteSource.first at *
    rw [List.range_succ, List.filterMap_append, ih, List.take_add_one]
    cases h : l[n]? <;> simp [ByteSource.byte?, h]

/-- An infinite source has a byte at every position. -/
theorem infinite_first (f : Nat → Byte) (n : Nat) : (ByteSource.infinite f).first n = (List.range n).map f := by
  have h : (ByteSource.infinite f).byte? = fun k => some (f k) := rfl
  unfold ByteSource.first
  rw [h, List.filterMap_eq_map']

/-- With nothing unread, released and nothing pending, a turn on the next byte of a source is that byte's step, and
a turn without one changes nothing. -/
theorem pipelineStep_deliver (s : State) (b : Option Byte) (hr : s.rst = false) (hp : s.pend = [])
    (hi : s.input = []) :
    pipelineStep (s.deliver b) = match b with
      | none => .next s
      | some v => byteStep v s := by
  obtain ⟨st, len, buf, pend, cfg, rst, input, cmds, diags⟩ := s
  simp only at hr hp hi
  subst hr hp hi
  cases b <;> rfl

/-- A run of the machine goes on from the next state. -/
theorem core_run_succ {s t : State} (k : Nat) (h : step s = .next t) :
    Host.Core.run core (k + 1) s = Host.Core.run core k t := by
  have h' : core.step s = .next t := h
  exact (Host.Core.run.eq_2 core s k).trans (by rw [h'])

/-- The bytes of a state that meets the invariants, and its buffer as consecutive bytes (R23, R24). -/
theorem inv_buf {s : State} (h : s.Inv) :
    s.buf = Memory.ofBytes 0 (s.buf.map Prod.snd) ∧ (s.buf.map Prod.snd).length = s.len := by
  obtain ⟨hd, hl⟩ := dense_eq_ofBytes h.1
  exact ⟨hd, by simpa using hl⟩

end Sys2Proof.Machine
end

