-- ==== Sys2Proof/Tests/Slice0.lean ====
section
/-! SUPPORT. Tests: ill-formed terms refused, words written out from the spec's tables decoded, one step per operation, and
for each statement with hypotheses a witness that meets them. Expected values are those of 30_encoding.md and
95_test_vectors.md, named in each docstring. -/

namespace Sys2Proof.Tests

open Sys2Proof Sys2Proof.Machine

/-- A state with a scan position, the bytes received and the bytes to come. -/
def at_ (q : ScanState) (got input : List Byte) : State :=
  { State.reset with st := q, len := got.length, buf := Memory.ofBytes 0 got, input := input }

/-- The answer is the given next state. -/
def gives (r : Result) (t : State) : Bool :=
  match r with
  | .next u => decide (u = t)
  | _ => false

/-- The answer is a next state with a property. -/
def nextWith (r : Result) (p : State → Bool) : Bool :=
  match r with
  | .next u => p u
  | _ => false

/-- A parameter set with `REEVAL` false. -/
def noReeval : Config := { Config.hw with reeval := false }

/-- A parameter set without the diagnostic sink. -/
def noDiag : Config := { Config.hw with hasDiag := false }

/-- Zero bytes. -/
def zeros (n : Nat) : List Byte := List.replicate n 0#8

/-- Fourteen bytes of V1.16. -/
def got14 : List Byte := [0x21#8, 0x47#8] ++ zeros 12

/-- V2.7: a bad marker with a fitting checksum. -/
def frameV27 : Frame := ⟨[0x20#8, 0x47#8, 0x00#8, 0x00#8, 0x00#8, 0x00#8, 0x00#8, 0x00#8, 0x00#8, 0x00#8, 0x00#8, 0x00#8, 0x00#8, 0x00#8, 0x98#8], rfl⟩

/-- V2.13: a good marker, the checksum off by one. -/
def frameV213 : Frame := ⟨[0x21#8, 0x47#8, 0x00#8, 0x00#8, 0x00#8, 0x3F#8, 0x00#8, 0x00#8, 0x00#8, 0x00#8, 0x00#8, 0x00#8, 0x00#8, 0x00#8, 0x59#8], rfl⟩

/-- V5.6: valid, x = y = 0.5. -/
def frameV56 : Frame := ⟨[0x21#8, 0x47#8, 0x00#8, 0x00#8, 0x00#8, 0x3F#8, 0x00#8, 0x00#8, 0x00#8, 0x3F#8, 0x00#8, 0x00#8, 0x00#8, 0x00#8, 0x19#8], rfl⟩

/-- x = y = 0.5. -/
def smpPP : Sample := ⟨0x3F000000#32, 0x3F000000#32, 0#32⟩

/-- x = y = -0.5. -/
def smpNN : Sample := ⟨0xBF000000#32, 0xBF000000#32, 0#32⟩

/-- x = y = 0.1. -/
def smpWW : Sample := ⟨0x3DCCCCCD#32, 0x3DCCCCCD#32, 0#32⟩

/-! Ill-formed terms -/

/-- R66: `MARKER0` is not dropped in Idle. -/
theorem test_illformed_aDrop_marker : Instr.wellFormed Config.hw (.aDrop 0x21#8) = false := by decide

/-- R94: A.RESYNC exists only with `REEVAL`. -/
theorem test_illformed_aResync_without_reeval : Instr.wellFormed noReeval (.aResync) = false := by decide

/-- R66: `MARKER1` is no miss. -/
theorem test_illformed_aMiss_marker1 : Instr.wellFormed Config.hw (.aMiss 0x47#8) = false := by decide

/-- R66: with `REEVAL`, `MARKER0` is no miss. -/
theorem test_illformed_aMiss_marker0 : Instr.wellFormed Config.hw (.aMiss 0x21#8) = false := by decide

/-- R68: a valid frame is not of class F.STRUCT. -/
theorem test_illformed_fStruct_valid_frame : Instr.wellFormed Config.hw (.fStruct frameV56) = false := by decide

/-- R68: a frame with a bad marker is not of class F.CKSUM. -/
theorem test_illformed_fCksum_bad_marker : Instr.wellFormed Config.hw (.fCksum frameV27) = false := by decide

/-- R68: a frame with a bad checksum is not of class F.VALID. -/
theorem test_illformed_fValid_bad_checksum : Instr.wellFormed Config.hw (.fValid frameV213) = false := by decide

/-- R134: y within the threshold. -/
theorem test_illformed_mFwd_within : Instr.wellFormed Config.hw (.mFwd smpWW) = false := by decide

/-- R135: y positive. -/
theorem test_illformed_mBwd_positive : Instr.wellFormed Config.hw (.mBwd smpPP) = false := by decide

/-- R136: x negative. -/
theorem test_illformed_mRight_negative : Instr.wellFormed Config.hw (.mRight smpNN) = false := by decide

/-- R137: x within the threshold. -/
theorem test_illformed_mLeft_within : Instr.wellFormed Config.hw (.mLeft smpWW) = false := by decide

/-- R138: both axes outside the threshold. -/
theorem test_illformed_mStop_outside : Instr.wellFormed Config.hw (.mStop smpPP) = false := by decide

/-- R176: no event row exists without the diagnostic sink. -/
theorem test_illformed_events_without_sink : 
    Instr.wellFormed noDiag .eStruct = false ∧ Instr.wellFormed noDiag .eCksum = false ∧
    Instr.wellFormed noDiag .eCmdStop = false ∧ Instr.wellFormed noDiag .eCmdForward = false ∧
    Instr.wellFormed noDiag .eCmdBackward = false ∧ Instr.wellFormed noDiag .eCmdLeft = false ∧
    Instr.wellFormed noDiag .eCmdRight = false := by decide

/-! Words written out from the tables -/

/-- R66, the seven BYTE rows at their scan positions (V1.6, V1.2, V1.7 to V1.9, V1.11, V1.13 to V1.16). -/
theorem test_decode_byte_rows : 
    decode Config.hw .idle 0 (.byte 0x21#8) = .ok [.aSync0] ∧
    decode Config.hw .idle 0 (.byte 0x47#8) = .ok [.aDrop 0x47#8] ∧
    decode Config.hw .matched 1 (.byte 0x47#8) = .ok [.aSync1] ∧
    decode Config.hw .matched 1 (.byte 0x21#8) = .ok [.aResync] ∧
    decode noReeval .matched 1 (.byte 0x21#8) = .ok [.aMiss 0x21#8] ∧
    decode Config.hw .matched 1 (.byte 0x46#8) = .ok [.aMiss 0x46#8] ∧
    decode Config.hw .collecting 2 (.byte 0x21#8) = .ok [.aAppend 0x21#8] ∧
    decode Config.hw .collecting 13 (.byte 0x47#8) = .ok [.aAppend 0x47#8] ∧
    decode Config.hw .collecting 14 (.byte 0x97#8) = .ok [.aLast 0x97#8] := by
  refine ⟨rfl, rfl, rfl, rfl, rfl, rfl, rfl, rfl, rfl⟩

/-- R62, R68: frames V2.7, V2.13 and V5.6 as 120-bit words, byte 0 in the low bits. -/
theorem test_decode_frame_rows : 
    decode Config.hw .idle 0 (.frame 0x980000000000000000000000004720#120) = .ok [.fStruct frameV27] ∧
    decode Config.hw .idle 0 (.frame 0x5900000000000000003F0000004721#120) = .ok [.fCksum frameV213] ∧
    decode Config.hw .idle 0 (.frame 0x19000000003F0000003F0000004721#120) = .ok [.fValid frameV56] := by
  refine ⟨rfl, rfl, rfl⟩

/-- R68, R134 to R138 on the words of V5.11, V5.15, V5.17 to V5.19, V5.14 and V5.20. -/
theorem test_decode_sample_rows : 
    decode Config.hw .idle 0 (.sample 0x000000003F0000003DCCCCCD#96) = .ok [.mFwd ⟨0x3DCCCCCD#32, 0x3F000000#32, 0#32⟩] ∧
    decode Config.hw .idle 0 (.sample 0x00000000BF0000003DCCCCCD#96) = .ok [.mBwd ⟨0x3DCCCCCD#32, 0xBF000000#32, 0#32⟩] ∧
    decode Config.hw .idle 0 (.sample 0x000000003DCCCCCD3F000000#96) = .ok [.mRight ⟨0x3F000000#32, 0x3DCCCCCD#32, 0#32⟩] ∧
    decode Config.hw .idle 0 (.sample 0x000000003DCCCCCDBF000000#96) = .ok [.mLeft ⟨0xBF000000#32, 0x3DCCCCCD#32, 0#32⟩] ∧
    decode Config.hw .idle 0 (.sample 0x000000003DCCCCCD3DCCCCCD#96) = .ok [.mStop smpWW] ∧
    decode Config.hw .idle 0 (.sample 0x00000000BF000000BF000000#96) = .ok [.mBwd smpNN, .mLeft smpNN] ∧
    decode Config.hw .idle 0 (.sample 0x000000003DCCCCCD7FC00000#96) = .ok [] := by
  refine ⟨rfl, rfl, rfl, rfl, rfl, rfl, rfl⟩

/-- V6.1 to V6.5. -/
theorem test_decode_command_rows : 
    decode Config.hw .idle 0 (.cmd 0x000000000#35) = .ok [.cmdStop] ∧
    decode Config.hw .idle 0 (.cmd 0x10BB80BB8#35) = .ok [.cmdForward] ∧
    decode Config.hw .idle 0 (.cmd 0x20BB80BB8#35) = .ok [.cmdBackward] ∧
    decode Config.hw .idle 0 (.cmd 0x30BB80BB8#35) = .ok [.cmdLeft] ∧
    decode Config.hw .idle 0 (.cmd 0x40BB80BB8#35) = .ok [.cmdRight] := by
  refine ⟨rfl, rfl, rfl, rfl, rfl⟩

/-- V6.6 to V6.8. -/
theorem test_decode_event_rows : 
    decode Config.hw .idle 0 (.diag 0x08#7) = .ok [.eStruct] ∧
    decode Config.hw .idle 0 (.diag 0x10#7) = .ok [.eCksum] ∧
    decode Config.hw .idle 0 (.diag 0x18#7) = .ok [.eCmdStop] ∧
    decode Config.hw .idle 0 (.diag 0x19#7) = .ok [.eCmdForward] ∧
    decode Config.hw .idle 0 (.diag 0x1A#7) = .ok [.eCmdBackward] ∧
    decode Config.hw .idle 0 (.diag 0x1B#7) = .ok [.eCmdLeft] ∧
    decode Config.hw .idle 0 (.diag 0x1C#7) = .ok [.eCmdRight] := by
  refine ⟨rfl, rfl, rfl, rfl, rfl, rfl, rfl⟩

/-- R73, R176: tags 5 and 7, codes 0, 4 and 15, and fields the block never produces. -/
theorem test_decode_rejects_by_name : 
    decode Config.hw .idle 0 (.cmd 0x50BB80BB8#35) = .error .reservedTag ∧
    decode Config.hw .idle 0 (.cmd 0x700000000#35) = .error .reservedTag ∧
    decode Config.hw .idle 0 (.cmd 0x10BB80BB7#35) = .error .foreignDuty ∧
    decode Config.hw .idle 0 (.cmd 0x000000001#35) = .error .foreignDuty ∧
    decode Config.hw .idle 0 (.diag 0x00#7) = .error .reservedCode ∧
    decode Config.hw .idle 0 (.diag 0x20#7) = .error .reservedCode ∧
    decode Config.hw .idle 0 (.diag 0x78#7) = .error .reservedCode ∧
    decode Config.hw .idle 0 (.diag 0x09#7) = .error .foreignArg ∧
    decode Config.hw .idle 0 (.diag 0x1D#7) = .error .foreignArg ∧
    decode noDiag .idle 0 (.diag 0x08#7) = .error .noDiagSink := by
  refine ⟨rfl, rfl, rfl, rfl, rfl, rfl, rfl, rfl, rfl, rfl⟩

/-- The host view of the table (log entry 14). -/
theorem test_table_words_decode : 
    decodeTableWord 8 0x21 = some .aSync0 ∧
    decodeTableWord 8 0x00 = some (.aDrop 0x00#8) ∧
    decodeTableWord 8 0x47 = some .aSync1 ∧
    decodeTableWord 8 0x1A = some .eCmdBackward ∧
    decodeTableWord 40 0x30BB80BB8 = some .cmdLeft ∧
    decodeTableWord 40 0x50BB80BB8 = none := by decide

/-! One step per operation -/

/-- V1.2. -/
theorem test_step_aDrop_47 : 
    gives (step (at_ .idle [] [0x47#8]))
      { at_ .idle [] [] with cmds := [], diags := [] } = true := by decide

/-- V1.4. -/
theorem test_step_aDrop_20 : 
    gives (step (at_ .idle [] [0x20#8]))
      { at_ .idle [] [] with cmds := [], diags := [] } = true := by decide

/-- V1.6. -/
theorem test_step_aSync0 : 
    gives (step (at_ .idle [] [0x21#8]))
      { at_ .matched [0x21#8] [] with cmds := [], diags := [] } = true := by decide

/-- V1.7. -/
theorem test_step_aSync1 : 
    gives (step (at_ .matched [0x21#8] [0x47#8]))
      { at_ .collecting [0x21#8, 0x47#8] [] with cmds := [], diags := [] } = true := by decide

/-- V1.8. -/
theorem test_step_aResync : 
    gives (step (at_ .matched [0x21#8] [0x21#8]))
      { at_ .matched [0x21#8] [] with cmds := [], diags := [] } = true := by decide

/-- V1.9. -/
theorem test_step_aMiss_without_reeval : 
    gives (step { at_ .matched [0x21#8] [0x21#8] with cfg := noReeval })
      { at_ .idle [] [] with cmds := [], diags := [], cfg := noReeval } = true := by decide

/-- V1.12. -/
theorem test_step_aMiss : 
    gives (step (at_ .matched [0x21#8] [0x48#8]))
      { at_ .idle [] [] with cmds := [], diags := [] } = true := by decide

/-- V1.13. -/
theorem test_step_aAppend : 
    gives (step (at_ .collecting [0x21#8, 0x47#8] [0x21#8]))
      { at_ .collecting [0x21#8, 0x47#8, 0x21#8] [] with cmds := [], diags := [] } = true := by decide

/-- V1.15. -/
theorem test_step_aAppend_to_14 : 
    gives (step (at_ .collecting ([0x21#8, 0x47#8] ++ zeros 11) [0x00#8]))
      { at_ .collecting got14 [] with cmds := [], diags := [] } = true := by decide

/-- V1.16. -/
theorem test_step_aLast_stop : 
    gives (step (at_ .collecting got14 [0x97#8]))
      { at_ .idle [] [] with cmds := [.stop], diags := [.cmd .stop] } = true := by decide

/-- V1.19. -/
theorem test_step_aLast_two_commands : 
    gives (step (at_ .collecting (frameV56.bytes.take 14) [0x19#8]))
      { at_ .idle [] [] with cmds := [.forward 3000 3000, .right 3000 3000], diags := [.cmd .forward, .cmd .right] } = true := by decide

/-- V1.17. -/
theorem test_step_fCksum_on_the_way : 
    gives (step (at_ .collecting got14 [0x96#8]))
      { at_ .idle [] [] with cmds := [], diags := [.cksum] } = true := by decide

/-- V2.7, R173. -/
theorem test_fStruct : 
    gives (exec (.fStruct frameV27) State.reset) { State.reset with diags := [.struct] } = true := by decide

/-- V2.13, R174. -/
theorem test_fCksum : 
    gives (exec (.fCksum frameV213) State.reset) { State.reset with diags := [.cksum] } = true := by decide

/-- R176: always empty without `HAS_DIAG`. -/
theorem test_fCksum_without_sink : 
    gives (exec (.fCksum frameV213) { State.reset with cfg := noDiag })
      { State.reset with cfg := noDiag } = true := by decide

/-- V5.8. -/
theorem test_fValid_backward_right : 
    gives (exec (.fValid (frameFor Config.hw ⟨0x3FC00000#32, 0xC0100000#32, 0#32⟩)) State.reset)
      { State.reset with cmds := [.backward 3000 3000, .right 3000 3000], diags := [.cmd .backward, .cmd .right] }
      = true := by decide

/-- V5.20: no command and no event. -/
theorem test_fValid_nan : 
    gives (exec (.fValid (frameFor Config.hw ⟨0x7FC00000#32, 0x3DCCCCCD#32, 0#32⟩)) State.reset) State.reset
      = true := by decide

/-- R134: appended after what the list holds. -/
theorem test_mFwd : 
    gives (exec (.mFwd smpPP) { State.reset with pend := [.stop] }) { State.reset with pend := [.stop, .forward 3000 3000] } = true := by decide

/-- R135: appended after what the list holds. -/
theorem test_mBwd : 
    gives (exec (.mBwd smpNN) { State.reset with pend := [.stop] }) { State.reset with pend := [.stop, .backward 3000 3000] } = true := by decide

/-- R136: appended after what the list holds. -/
theorem test_mRight : 
    gives (exec (.mRight smpPP) { State.reset with pend := [.stop] }) { State.reset with pend := [.stop, .right 3000 3000] } = true := by decide

/-- R137: appended after what the list holds. -/
theorem test_mLeft : 
    gives (exec (.mLeft smpNN) { State.reset with pend := [.stop] }) { State.reset with pend := [.stop, .left 3000 3000] } = true := by decide

/-- R138: appended after what the list holds. -/
theorem test_mStop : 
    gives (exec (.mStop smpWW) { State.reset with pend := [.stop] }) { State.reset with pend := [.stop, .stop] } = true := by decide

/-- R70, R12: appended to the command trace. -/
theorem test_cmdStop : 
    gives (exec .cmdStop { State.reset with cmds := [.stop] }) { State.reset with cmds := [.stop, .stop] } = true := by decide

/-- R70, R12: appended to the command trace. -/
theorem test_cmdForward : 
    gives (exec .cmdForward { State.reset with cmds := [.stop] }) { State.reset with cmds := [.stop, .forward 3000 3000] } = true := by decide

/-- R70, R12: appended to the command trace. -/
theorem test_cmdBackward : 
    gives (exec .cmdBackward { State.reset with cmds := [.stop] }) { State.reset with cmds := [.stop, .backward 3000 3000] } = true := by decide

/-- R70, R12: appended to the command trace. -/
theorem test_cmdLeft : 
    gives (exec .cmdLeft { State.reset with cmds := [.stop] }) { State.reset with cmds := [.stop, .left 3000 3000] } = true := by decide

/-- R70, R12: appended to the command trace. -/
theorem test_cmdRight : 
    gives (exec .cmdRight { State.reset with cmds := [.stop] }) { State.reset with cmds := [.stop, .right 3000 3000] } = true := by decide

/-- R71, R12: appended to the diagnostic trace. -/
theorem test_eStruct : 
    gives (exec .eStruct { State.reset with diags := [.struct] }) { State.reset with diags := [.struct, .struct] } = true := by decide

/-- R71, R12: appended to the diagnostic trace. -/
theorem test_eCksum : 
    gives (exec .eCksum { State.reset with diags := [.struct] }) { State.reset with diags := [.struct, .cksum] } = true := by decide

/-- R71, R12: appended to the diagnostic trace. -/
theorem test_eCmdStop : 
    gives (exec .eCmdStop { State.reset with diags := [.struct] }) { State.reset with diags := [.struct, .cmd .stop] } = true := by decide

/-- R71, R12: appended to the diagnostic trace. -/
theorem test_eCmdForward : 
    gives (exec .eCmdForward { State.reset with diags := [.struct] }) { State.reset with diags := [.struct, .cmd .forward] } = true := by decide

/-- R71, R12: appended to the diagnostic trace. -/
theorem test_eCmdBackward : 
    gives (exec .eCmdBackward { State.reset with diags := [.struct] }) { State.reset with diags := [.struct, .cmd .backward] } = true := by decide

/-- R71, R12: appended to the diagnostic trace. -/
theorem test_eCmdLeft : 
    gives (exec .eCmdLeft { State.reset with diags := [.struct] }) { State.reset with diags := [.struct, .cmd .left] } = true := by decide

/-- R71, R12: appended to the diagnostic trace. -/
theorem test_eCmdRight : 
    gives (exec .eCmdRight { State.reset with diags := [.struct] }) { State.reset with diags := [.struct, .cmd .right] } = true := by decide

/-- V4.2, V4.7, V4.8, V4.10, V4.11, V4.15 to V4.17, V4.21. -/
theorem test_classify_boundaries : 
    classify Config.hw 0x80000000#32 = .within ∧
    classify Config.hw 0x3E4CCCCC#32 = .within ∧
    classify Config.hw 0x3E4CCCCD#32 = .pos ∧
    classify Config.hw 0xBE4CCCCC#32 = .within ∧
    classify Config.hw 0xBE4CCCCD#32 = .neg ∧
    classify Config.hw 0x7F800000#32 = .pos ∧
    classify Config.hw 0xFF800000#32 = .neg ∧
    classify Config.hw 0x7F800001#32 = .unordered ∧
    classify Config.hw 0xFFFFFFFF#32 = .unordered := by decide

/-- V2.1, V2.2, V2.4, V2.5. -/
theorem test_checksum_vectors : 
    checksum got14 = 0x97#8 ∧ checksum ([0x21#8, 0x47#8] ++ List.replicate 12 0xFF#8) = 0xA3#8 ∧
    checksum ([0x21#8, 0x47#8, 0x98#8] ++ zeros 11) = 0xFF#8 ∧ checksum ([0x21#8, 0x47#8, 0x97#8] ++ zeros 11) = 0x00#8 := by decide

/-- V3.2. -/
theorem test_decode_byte_order : 
    decodeSampleOf ⟨[0x21#8, 0x47#8, 0x01#8, 0x02#8, 0x03#8, 0x04#8, 0x05#8, 0x06#8, 0x07#8, 0x08#8, 0x09#8, 0x0A#8, 0x0B#8,
      0x0C#8, 0x49#8], rfl⟩ = ⟨0x04030201#32, 0x08070605#32, 0x0C0B0A09#32⟩ := by decide

/-- The memory of reset has the canonical form. -/
theorem test_reset_buffer_wf : Memory.wf State.reset.buf = true := by decide

/-- R191: a partial frame is discarded, no byte is read. -/
theorem test_reset_input_mid_frame : 
    gives (step { at_ .collecting got14 [0x97#8] with rst := true }) { at_ .idle [] [0x97#8] with rst := true }
      = true := by decide

/-- Log entry 3: the step after placing a command word. -/
theorem test_placed_word_runs : 
    gives (step (State.reset.withFetchWord 40 0x20BB80BB8))
      { State.reset with cmds := [.backward 3000 3000], diags := [.cmd .backward] } = true := by decide

/-! Witnesses: concrete states and operands that meet the hypotheses of the statements -/

/-- Mid-frame, the fifteenth byte of V1.16 next. -/
def midFrame : State := at_ .collecting got14 [0x97#8]

/-- Two commands pending. -/
def twoPending : State := { State.reset with pend := [.forward 3000 3000, .right 3000 3000] }

/-- Outside the invariants: fourteen bytes with a bad marker, which only 41_frame_validator.md V2.7 uses. -/
def badMarkerState : State := at_ .collecting (frameV27.bytes.take 14) [0x98#8]

/-- Operations with a scan position each admits. -/
def byteRows : List (Instr × ScanState × Nat) :=
  [(.aSync0, .idle, 0), (.aDrop 0x00#8, .idle, 0), (.aSync1, .matched, 1), (.aResync, .matched, 1),
   (.aMiss 0x46#8, .matched, 1), (.aAppend 0xFF#8, .collecting, 2), (.aAppend 0xFF#8, .collecting, 13),
   (.aLast 0x21#8, .collecting, 14)]

/-- Operations with a scan position each admits. -/
def frameAndSampleRows : List (Instr × ScanState × Nat) :=
  [(.fStruct frameV27, .idle, 0), (.fCksum frameV213, .idle, 0), (.fValid frameV56, .idle, 0),
   (.mFwd smpPP, .idle, 0), (.mBwd smpNN, .idle, 0), (.mRight smpPP, .idle, 0), (.mLeft smpNN, .idle, 0),
   (.mStop smpWW, .idle, 0)]

/-- Operations with a scan position each admits. -/
def outputRows : List (Instr × ScanState × Nat) :=
  [(.cmdStop, .idle, 0), (.cmdForward, .idle, 0), (.cmdBackward, .idle, 0), (.cmdLeft, .idle, 0),
   (.cmdRight, .idle, 0), (.eStruct, .idle, 0), (.eCksum, .idle, 0), (.eCmdStop, .idle, 0),
   (.eCmdForward, .idle, 0), (.eCmdBackward, .idle, 0), (.eCmdLeft, .idle, 0), (.eCmdRight, .idle, 0)]

/-- One of each operation, with the word's bytes from the tables. -/
def oneOfEach : List (Instr × ScanState × Nat) := byteRows ++ frameAndSampleRows ++ outputRows

/-- Meets the hypotheses of AssertedResetDiscardsTheScanState. Mid-frame (R191). -/
theorem test_witness_AssertedResetDiscardsTheScanState : { midFrame with rst := true }.rst = true := rfl

/-- Meets the hypotheses of StepRunsTheSelectedOperation. -/
theorem test_witness_StepRunsTheSelectedOperation :
    midFrame.rst = false ∧ midFrame.pend = [] ∧ midFrame.input = 0x97#8 :: [] := by decide

/-- Meets the hypotheses of WaitingForAByteChangesNothing. -/
theorem test_witness_WaitingForAByteChangesNothing :
    State.reset.rst = false ∧ State.reset.pend = [] ∧ State.reset.input = [] := by decide

/-- Meets the hypotheses of PendingCommandsGoOutFirst. -/
theorem test_witness_PendingCommandsGoOutFirst : twoPending.rst = false ∧ twoPending.pend ≠ [] := by decide

/-- Meets the hypotheses of StepKeepsScanInvariants. One state of each kind, the ends of Collecting included. -/
theorem test_witness_StepKeepsScanInvariants :
    State.reset.Inv ∧ (at_ .matched [0x21#8] [0x21#8]).Inv ∧ (at_ .collecting [0x21#8, 0x47#8] [0x00#8]).Inv ∧
    midFrame.Inv ∧ ∃ t, step midFrame = .next t := ⟨by decide, by decide, by decide, by decide, _, rfl⟩

/-- Meets the hypotheses of StepKeepsBufferCanonical. -/
theorem test_witness_StepKeepsBufferCanonical : Memory.wf midFrame.buf = true ∧ ∃ t, step midFrame = .next t := ⟨by decide, _, rfl⟩

/-- Meets the hypotheses of StepConsumesOneByteAndKeepsParameters. -/
theorem test_witness_StepConsumesOneByteAndKeepsParameters :
    (midFrame.rst = false ∧ midFrame.pend = [] ∧ midFrame.input = 0x97#8 :: [] ∧ ∃ t, step midFrame = .next t) ∧
    ({ midFrame with rst := true }.rst = true ∧ ∃ t, step { midFrame with rst := true } = .next t) ∧
    (twoPending.pend ≠ [] ∧ ∃ t, step twoPending = .next t) ∧
    (State.reset.input = [] ∧ ∃ t, step State.reset = .next t) :=
  ⟨⟨rfl, rfl, rfl, _, rfl⟩, ⟨rfl, _, rfl⟩, ⟨by decide, _, rfl⟩, rfl, _, rfl⟩

/-- Meets the hypotheses of StepOnlyExtendsTraces. -/
theorem test_witness_StepOnlyExtendsTraces : ∃ t, step midFrame = .next t := ⟨_, rfl⟩

/-- Meets the hypotheses of ByteStepIsTotalAndBounded. Every clause. -/
theorem test_witness_ByteStepIsTotalAndBounded :
    midFrame.Inv ∧ midFrame.cfg.hasDiag = true ∧ { midFrame with cfg := noDiag }.cfg.hasDiag = false ∧
    (∃ t, byteStep 0x97#8 midFrame = .next t ∧ t.cmds = midFrame.cmds ++ [.stop]) ∧
    (∃ t, byteStep 0x97#8 { midFrame with cfg := noDiag } = .next t) ∧
    frameHandedOn State.reset 0x21#8 = none ∧ (∃ t, byteStep 0x21#8 State.reset = .next t) ∧
    (∃ f, frameHandedOn midFrame 0x97#8 = some f ∧ validate Config.hw f = .valid) ∧
    (∃ f, frameHandedOn midFrame 0x96#8 = some f ∧ validate Config.hw f = .checksumError) ∧
    (∃ t, byteStep 0x96#8 midFrame = .next t) ∧
    (∃ f, frameHandedOn badMarkerState 0x98#8 = some f ∧ validate Config.hw f = .structuralError) ∧
    ∃ t, byteStep 0x98#8 badMarkerState = .next t := 
  ⟨by decide, rfl, rfl, ⟨_, rfl, rfl⟩, ⟨_, rfl⟩, rfl, ⟨_, rfl⟩, ⟨_, rfl, rfl⟩, ⟨_, rfl, rfl⟩, ⟨_, rfl⟩,
    ⟨_, rfl, rfl⟩, _, rfl⟩

/-- Meets the hypotheses of ByteSelectsItsTableRow. Every clause. -/
theorem test_witness_ByteSelectsItsTableRow :
    (0x21#8 = Config.hw.marker0) ∧ (0x47#8 ≠ Config.hw.marker0) ∧ (0x47#8 = Config.hw.marker1) ∧
    (0x21#8 ≠ Config.hw.marker1 ∧ 0x21#8 = Config.hw.marker0 ∧ Config.hw.reeval = true) ∧
    (0x46#8 ≠ Config.hw.marker1 ∧ 0x46#8 ≠ Config.hw.marker0) ∧
    (0x21#8 ≠ noReeval.marker1 ∧ noReeval.reeval = false) ∧ 13 < 14 ∧ 14 = 14 := by decide

/-- Meets the hypotheses of EncodedOperationsDecodeBack. One of each operation. -/
theorem test_witness_EncodedOperationsDecodeBack :
    Config.hw.legal ∧ oneOfEach.all (fun p => p.1.wellFormed Config.hw && p.1.admits p.2.1 p.2.2) = true := by decide

/-- Meets the hypotheses of DecodedOperationsEncodeBack. One of each operation. -/
theorem test_witness_DecodedOperationsEncodeBack :
    Config.hw.legal ∧
    oneOfEach.all (fun p => match decode Config.hw p.2.1 p.2.2 (encode Config.hw p.1) with
      | .ok l => decide (p.1 ∈ l)
      | .error _ => false) = true := by decide

/-- Meets the hypotheses of DropLeavesNoTrace. -/
theorem test_witness_DropLeavesNoTrace : State.reset.st = .idle ∧ 0x47#8 ≠ State.reset.cfg.marker0 := by decide

/-- Meets the hypotheses of FirstMarkerByteEntersMatched. -/
theorem test_witness_FirstMarkerByteEntersMatched : State.reset.st = .idle := rfl

/-- Meets the hypotheses of SecondMarkerByteEntersCollecting. -/
theorem test_witness_SecondMarkerByteEntersCollecting :
    (at_ .matched [0x21#8] []).Inv ∧ (at_ .matched [0x21#8] []).st = .matched := by decide

/-- Meets the hypotheses of RepeatedMarkerByteStaysMatched. -/
theorem test_witness_RepeatedMarkerByteStaysMatched : (at_ .matched [0x21#8] []).Inv ∧ (at_ .matched [0x21#8] []).st = .matched := by decide

/-- Meets the hypotheses of MarkerMissResetsTheBuffer. Both ways to miss. -/
theorem test_witness_MarkerMissResetsTheBuffer :
    (at_ .matched [0x21#8] []).st = .matched ∧
    (0x46#8 ≠ Config.hw.marker1 ∧ 0x46#8 ≠ Config.hw.marker0) ∧
    (0x21#8 ≠ noReeval.marker1 ∧ noReeval.reeval = false) := by decide

/-- Meets the hypotheses of AppendStoresTheByteAtLen. The first and the last offset. -/
theorem test_witness_AppendStoresTheByteAtLen :
    (at_ .collecting [0x21#8, 0x47#8] []).st = .collecting ∧ (at_ .collecting [0x21#8, 0x47#8] []).len < 14 ∧
    (at_ .collecting ([0x21#8, 0x47#8] ++ zeros 11) []).len = 13 := by decide

/-- Meets the hypotheses of LastByteHandsTheFrameOn. -/
theorem test_witness_LastByteHandsTheFrameOn : midFrame.Inv ∧ midFrame.st = .collecting ∧ midFrame.len = 14 := by decide

/-- Meets the hypotheses of LastByteRunsTheFramesRow. -/
theorem test_witness_LastByteRunsTheFramesRow :
    frameHandedOn midFrame 0x97#8 = some (frameFor Config.hw zeroSample) ∧
    frameHandedOn badMarkerState 0x98#8 = some frameV27 := ⟨rfl, rfl⟩

/-- Meets the hypotheses of AccessesTheRulesExcludeStop. The least offset that does not exist, and the last and first of the bytes that may be missing. -/
theorem test_witness_AccessesTheRulesExcludeStop :
    15 ≤ { midFrame with len := 15 }.len ∧
    ((at_ .collecting ([0x21#8, 0x47#8] ++ zeros 11) []).buf.read 13 = none ∧ 13 < 14) ∧
    (State.reset.buf.read 0 = none ∧ 0 < 14) := by decide

/-- Meets the hypotheses of CollectingStoresBytesUninspected. The longest input. -/
theorem test_witness_CollectingStoresBytesUninspected :
    (at_ .collecting [0x21#8, 0x47#8] []).Inv ∧ (at_ .collecting [0x21#8, 0x47#8] []).st = .collecting ∧
    (at_ .collecting [0x21#8, 0x47#8] []).len + (List.replicate 6 [0x21#8, 0x47#8]).flatten.length ≤ 14 := by decide

/-- Meets the hypotheses of MarkerRunLeavesMatched. -/
theorem test_witness_MarkerRunLeavesMatched :
    State.reset.Inv ∧ State.reset.st = .idle ∧ State.reset.cfg.legal ∧ State.reset.cfg.reeval = true := by decide

/-- Meets the hypotheses of ReevalDecidesOnlyRepeatedMarkers. -/
theorem test_witness_ReevalDecidesOnlyRepeatedMarkers :
    Config.hw.legal ∧ ¬(ScanState.idle = .matched ∧ Config.hw.marker0 = Config.hw.marker0) ∧
    ¬(ScanState.matched = .matched ∧ Config.hw.marker1 = Config.hw.marker0) := by decide

/-- Meets the hypotheses of ChecksumIsComplementOfTheWrappingSum. -/
theorem test_witness_ChecksumIsComplementOfTheWrappingSum :
    got14.length = 14 ∧ [0xFF#8, 0x02#8].Perm [0x02#8, 0xFF#8] := by decide

/-- Meets the hypotheses of ValidFramesSumToAllOnes. -/
theorem test_witness_ValidFramesSumToAllOnes :
    frameV56.byte 0 = Config.hw.marker0 ∧ frameV56.byte 1 = Config.hw.marker1 ∧ Config.hw.marker0 = 0x21#8 ∧
    Config.hw.marker1 = 0x47#8 := by decide

/-- Meets the hypotheses of ChecksumRoundTrips. V1.16 and V1.17. -/
theorem test_witness_ChecksumRoundTrips :
    got14.length = 14 ∧ got14[0]? = some Config.hw.marker0 ∧ got14[1]? = some Config.hw.marker1 ∧
    (frameFor Config.hw zeroSample).bytes = got14 ++ [0x97#8] ∧ 0x97#8 = checksum got14 ∧
    (frameWith Config.hw zeroSample 0x96#8).bytes = got14 ++ [0x96#8] ∧ 0x96#8 ≠ checksum got14 := by decide

/-- V2.11: valid, x = 0.5. -/
def frameV211 : Frame := ⟨[0x21#8, 0x47#8, 0x00#8, 0x00#8, 0x00#8, 0x3F#8, 0x00#8, 0x00#8, 0x00#8, 0x00#8, 0x00#8, 0x00#8, 0x00#8, 0x00#8, 0x58#8], rfl⟩

/-- V2.12: the bytes of V2.11 in another order. -/
def frameV212 : Frame := ⟨[0x21#8, 0x47#8, 0x00#8, 0x00#8, 0x00#8, 0x00#8, 0x00#8, 0x00#8, 0x00#8, 0x3F#8, 0x00#8, 0x00#8, 0x00#8, 0x00#8, 0x58#8], rfl⟩

/-- V2.14: V2.11 with one payload byte changed. -/
def frameV214 : Frame := ⟨[0x21#8, 0x47#8, 0x00#8, 0x00#8, 0x01#8, 0x3F#8, 0x00#8, 0x00#8, 0x00#8, 0x00#8, 0x00#8, 0x00#8, 0x00#8, 0x00#8, 0x58#8], rfl⟩

/-- V2.15: V2.11 with two changes that leave the sum the same modulo 256. -/
def frameV215 : Frame := ⟨[0x21#8, 0x47#8, 0x00#8, 0x00#8, 0x01#8, 0x3F#8, 0x00#8, 0x00#8, 0x00#8, 0x00#8, 0x00#8, 0x00#8, 0x00#8, 0xFF#8, 0x58#8], rfl⟩

/-- V2.11 with byte 1 changed. -/
def frameMark1 : Frame := ⟨[0x21#8, 0x46#8, 0x00#8, 0x00#8, 0x00#8, 0x3F#8, 0x00#8, 0x00#8, 0x00#8, 0x00#8, 0x00#8, 0x00#8, 0x00#8, 0x00#8, 0x58#8], rfl⟩

/-- Meets the hypotheses of OneChangedByteIsCaughtOthersMayNotBe. V2.11 to V2.15. -/
theorem test_witness_OneChangedByteIsCaughtOthersMayNotBe :
    validate Config.hw frameV211 = .valid ∧
    (frameMark1.byte 1 ≠ frameV211.byte 1 ∧ ∀ j : Fin 15, j ≠ 1 → frameMark1.byte j = frameV211.byte j) ∧
    (frameV214.byte 4 ≠ frameV211.byte 4 ∧ ∀ j : Fin 15, j ≠ 4 → frameV214.byte j = frameV211.byte j) ∧
    (frameV213.byte 14 ≠ frameV211.byte 14 ∧ ∀ j : Fin 15, j ≠ 14 → frameV213.byte j = frameV211.byte j) ∧
    (frameV212.byte 0 = frameV211.byte 0 ∧ frameV212.byte 1 = frameV211.byte 1 ∧
      (frameV212.bytes.drop 2).Perm (frameV211.bytes.drop 2)) ∧
    frameV215.byte 0 = frameV211.byte 0 ∧ frameV215.byte 1 = frameV211.byte 1 ∧
    (frameV215.bytes.map BitVec.toNat).sum % 256 = (frameV211.bytes.map BitVec.toNat).sum % 256 := by decide

/-- Meets the hypotheses of RejectedFramesRaiseOneEventOnly. -/
theorem test_witness_RejectedFramesRaiseOneEventOnly :
    frameV27.byte 0 ≠ Config.hw.marker0 ∧ frameMark1.byte 1 ≠ Config.hw.marker1 ∧
    frameV213.byte 0 = Config.hw.marker0 ∧ frameV213.byte 1 = Config.hw.marker1 ∧
    frameV213.byte 14 ≠ checksum (frameV213.bytes.take 14) ∧
    (∃ f, frameHandedOn midFrame 0x96#8 = some f ∧ validate midFrame.cfg f = .checksumError) ∧
    ∃ f, frameHandedOn badMarkerState 0x98#8 = some f ∧ validate badMarkerState.cfg f = .structuralError :=
  ⟨by decide, by decide, by decide, by decide, by decide, ⟨_, rfl, rfl⟩, _, rfl, rfl⟩

/-- Meets the hypotheses of SampleCommandCounts. -/
theorem test_witness_SampleCommandCounts :
    classify Config.hw smpPP.x ≠ .unordered ∧ classify Config.hw smpPP.y ≠ .unordered ∧
    Command.stop ∈ mapCommands Config.hw smpWW := by decide

/-- V2.12 with z other than 0 and the checksum to fit. -/
def frameOtherZ : Frame := ⟨[0x21#8, 0x47#8, 0x00#8, 0x00#8, 0x00#8, 0x00#8, 0x00#8, 0x00#8, 0x00#8, 0x3F#8, 0x01#8, 0x00#8, 0x00#8, 0x00#8, 0x57#8], rfl⟩

/-- Meets the hypotheses of FieldZHasNoEffect. -/
theorem test_witness_FieldZHasNoEffect :
    validate Config.hw frameV212 = .valid ∧ validate Config.hw frameOtherZ = .valid ∧
    ∀ i : Fin 15, i.val < 10 → frameV212.byte i = frameOtherZ.byte i := by decide

/-- Meets the hypotheses of EmissionRulesAppendTheirCommand. Each of the five. -/
theorem test_witness_EmissionRulesAppendTheirCommand :
    .mStop smpWW ∈ decodeSample Config.hw smpWW ∧ ∀ i ∈ [Instr.mFwd smpPP, .mBwd smpNN, .mRight smpPP, .mLeft smpNN, .mStop smpWW], ∃ c : Command,
      (i = .mFwd smpPP ∧ c = .forward 3000 3000) ∨ (i = .mBwd smpNN ∧ c = .backward 3000 3000) ∨
      (i = .mRight smpPP ∧ c = .right 3000 3000) ∨ (i = .mLeft smpNN ∧ c = .left 3000 3000) ∨
      (i = .mStop smpWW ∧ c = .stop) := ⟨by decide, by simp⟩

/-- Meets the hypotheses of CommandRowsExtendTheCommandTrace. Each of the five. -/
theorem test_witness_CommandRowsExtendTheCommandTrace :
    ∀ i ∈ [Instr.cmdStop, .cmdForward, .cmdBackward, .cmdLeft, .cmdRight], ∃ c : Command,
      (i = .cmdStop ∧ c = .stop) ∨ (i = .cmdForward ∧ c = .forward 3000 3000) ∨
      (i = .cmdBackward ∧ c = .backward 3000 3000) ∨ (i = .cmdLeft ∧ c = .left 3000 3000) ∨
      (i = .cmdRight ∧ c = .right 3000 3000) := by
  simp

/-- Meets the hypotheses of EventRowsExtendTheDiagnosticTrace. Each of the seven. -/
theorem test_witness_EventRowsExtendTheDiagnosticTrace :
    ∀ i ∈ [Instr.eStruct, .eCksum, .eCmdStop, .eCmdForward, .eCmdBackward, .eCmdLeft, .eCmdRight], ∃ e : DiagEvent,
      (i = .eStruct ∧ e = .struct) ∨ (i = .eCksum ∧ e = .cksum) ∨
      (i = .eCmdStop ∧ e = .cmd .stop) ∨ (i = .eCmdForward ∧ e = .cmd .forward) ∨
      (i = .eCmdBackward ∧ e = .cmd .backward) ∨ (i = .eCmdLeft ∧ e = .cmd .left) ∨
      (i = .eCmdRight ∧ e = .cmd .right) := by
  simp

/-- Meets the hypotheses of OutputWordsArePackedAsTabled. The ends of the range. -/
theorem test_witness_OutputWordsArePackedAsTabled : 65535 < 2 ^ 16 ∧ 0 < 2 ^ 16 := by decide

/-- Meets the hypotheses of FrameFieldsAreContiguousSlices. The ends of the range. -/
theorem test_witness_FrameFieldsAreContiguousSlices : 0 < 8 ∧ 7 < 8 := by decide

/-- Meets the hypotheses of OnlyValidFramesCommand. A rejected frame, and no frame. -/
theorem test_witness_OnlyValidFramesCommand :
    (∃ t, byteStep 0x96#8 midFrame = .next t) ∧
    (∀ f, frameHandedOn midFrame 0x96#8 = some f → validate midFrame.cfg f ≠ .valid) ∧
    (∃ t, byteStep 0x21#8 State.reset = .next t) ∧ frameHandedOn State.reset 0x21#8 = none := 
  ⟨⟨_, rfl⟩, fun f h => by cases h; decide, ⟨_, rfl⟩, rfl⟩

/-- Meets the hypotheses of TracesAreTheFramesHandedOn. -/
theorem test_witness_TracesAreTheFramesHandedOn :
    (∃ t, runBytes [0x97#8] midFrame = .next t) ∧
    framesHandedOn [0x97#8] midFrame = [frameFor Config.hw zeroSample] := ⟨⟨_, rfl⟩, rfl⟩

/-- Meets the hypotheses of FramesAreMarkedStretchesOfTheStream. -/
theorem test_witness_FramesAreMarkedStretchesOfTheStream : midFrame.Inv ∧ framesHandedOn [0x97#8] midFrame ≠ [] := by decide

/-- Meets the hypotheses of AssembleNextTakesUpToOneFrame. -/
theorem test_witness_AssembleNextTakesUpToOneFrame :
    midFrame.Inv ∧ ∃ t, assembleNext [0x97#8, 0x00#8] midFrame = some (frameFor Config.hw zeroSample, [0x00#8], t) := ⟨by decide, _, rfl⟩

/-- Meets the hypotheses of StarvedStreamsPutNothingOut. -/
theorem test_witness_StarvedStreamsPutNothingOut :
    State.reset.Inv ∧ State.reset.st = .idle ∧ State.reset.cfg.legal ∧
    noMarkerPair State.reset.cfg [0x47#8, 0x21#8, 0x21#8] = true := by decide

/-- Meets the hypotheses of NoiseThenFrameHandsOnThatFrame. Noise ending in `MARKER0` with `REEVAL`, and noise that leaves Idle without it. -/
theorem test_witness_NoiseThenFrameHandsOnThatFrame :
    State.reset.Inv ∧ State.reset.st = .idle ∧ State.reset.cfg.legal ∧
    noMarkerPair State.reset.cfg [0x00#8, 0x47#8, 0x21#8] = true ∧ frameV213.byte 0 = State.reset.cfg.marker0 ∧
    frameV213.byte 1 = State.reset.cfg.marker1 ∧ State.reset.cfg.reeval = true ∧
    { State.reset with cfg := noReeval }.Inv ∧ noReeval.legal ∧ noMarkerPair noReeval [0x21#8, 0x21#8] = true ∧
    ∃ u, runBytes [0x21#8, 0x21#8] { State.reset with cfg := noReeval } = .next u ∧ u.st = .idle := 
  ⟨by decide, by decide, by decide, by decide, by decide, by decide, by decide, by decide, by decide, by decide,
    _, rfl, rfl⟩

/-- Meets the hypotheses of RunsComposeAndConsumeAllInput. -/
theorem test_witness_RunsComposeAndConsumeAllInput :
    midFrame.Inv ∧ midFrame.rst = false ∧ State.reset.Inv ∧ State.reset.rst = false ∧ State.reset.input = [] := by
  decide

/-- R47, R157, program P8: on a finite source the turns after its last byte wait, mid-frame. -/
theorem test_finite_source_waits :
    gives (sourceRun (.finite [0x21#8, 0x47#8, 0x01#8, 0x02#8, 0x03#8]) 7 State.reset)
      (at_ .collecting [0x21#8, 0x47#8, 0x01#8, 0x02#8, 0x03#8] []) = true := by decide

/-- R47, V1.6, V1.8: an endless stream of `MARKER0`, seen for four turns. -/
theorem test_infinite_source_goes_on :
    gives (sourceRun (.infinite (fun _ => 0x21#8)) 4 State.reset) (at_ .matched [0x21#8] []) = true := by decide

/-- Meets the hypotheses of OnlyTheScanStateCarriesOver. Two states that differ in traces and input only. -/
theorem test_witness_OnlyTheScanStateCarriesOver :
    midFrame.cfg = { midFrame with cmds := [.stop], input := [] }.cfg ∧ midFrame.pend = [] ∧
    ∃ t, byteStep 0x97#8 midFrame = .next t := ⟨rfl, rfl, _, rfl⟩

/-- Meets the hypotheses of DiagnosticSinkIsObservationalOnly. -/
theorem test_witness_DiagnosticSinkIsObservationalOnly :
    ∃ t, runBytes [0x97#8] midFrame = .next t ∧ t.diags = [.cmd .stop] := ⟨_, rfl, rfl⟩

/-- Meets the hypotheses of EveryEmbeddedFrameIsObeyed. The input the statement fails on (P4). -/
theorem test_witness_EveryEmbeddedFrameIsObeyed :
    validate Config.hw frameV56 = .valid ∧
    ∃ t, runBytes ([0x21#8, 0x47#8] ++ frameV56.bytes ++ []) State.reset = .next t := ⟨rfl, _, rfl⟩

/-- Meets the hypotheses of ReadyExactlyWhenNothingIsPending. -/
theorem test_witness_ReadyExactlyWhenNothingIsPending :
    (∃ c' o, Cycle.clockEdge Cycle.CycleState.reset ⟨false, true, 0x21#8⟩ = .next (c', o)) ∧
    Cycle.CycleState.reset.cmdLatch = [] ∧ Cycle.CycleState.reset.diagLatch = [] := ⟨⟨_, _, rfl⟩, rfl, rfl⟩

/-- Meets the hypotheses of LatchHoldsAtMostOneFramesOutput. The edge that fills the latch. -/
theorem test_witness_LatchHoldsAtMostOneFramesOutput :
    (Cycle.CycleState.mk midFrame [] []).core.Inv ∧
    ∃ c' o, Cycle.clockEdge ⟨midFrame, [], []⟩ ⟨false, true, 0x97#8⟩ = .next (c', o) ∧ c'.cmdLatch = [.stop] :=
  ⟨by decide, _, _, rfl, rfl⟩

/-- Meets the hypotheses of CycleBindingRefinesTheByteSteps. A frame completes and its output goes out while the next byte waits. -/
theorem test_witness_CycleBindingRefinesTheByteSteps :
    midFrame.cmds = [] ∧ midFrame.diags = [] ∧
    ∃ c' os, Cycle.runCycles [⟨false, true, 0x97#8⟩, ⟨false, true, 0x21#8⟩] ⟨midFrame, [], []⟩ = .next (c', os) := ⟨rfl, rfl, _, _, rfl⟩

end Sys2Proof.Tests
end

section
/-! The two traces are only written: what a byte-step and a run do is the same whatever stood on them before. -/

namespace Sys2Proof.Machine

/-- A.APPEND at a position outside the buffer stops by name (R41, log entry 6). -/
theorem execAAppend_fault (s : State) (b : Byte) (h : ¬ s.len < frameLen) :
    execAAppend b s = .fault (.noSuchOffset s.len) := by
  rw [execAAppend, store_fault s b h, andThen_fault]

/-- The state with older entries in front of both traces. -/
def State.prependTraces (cs : List Command) (ds : List DiagEvent) (s : State) : State :=
  { s with cmds := cs ++ s.cmds, diags := ds ++ s.diags }

/-- The state with both traces emptied, as the cycle-level binding keeps it. -/
def State.clearTraces (s : State) : State :=
  { s with cmds := [], diags := [] }

@[simp] theorem prependTraces_cfg (cs : List Command) (ds : List DiagEvent) (s : State) :
    (s.prependTraces cs ds).cfg = s.cfg := rfl
@[simp] theorem prependTraces_cmds (cs : List Command) (ds : List DiagEvent) (s : State) :
    (s.prependTraces cs ds).cmds = cs ++ s.cmds := rfl
@[simp] theorem prependTraces_diags (cs : List Command) (ds : List DiagEvent) (s : State) :
    (s.prependTraces cs ds).diags = ds ++ s.diags := rfl

/-- A state is its scan state with its own traces put back. -/
theorem prependTraces_clearTraces (s : State) : s.clearTraces.prependTraces s.cmds s.diags = s := by
  simp [State.prependTraces, State.clearTraces]

theorem clearTraces_of_nil {s : State} (hc : s.cmds = []) (hd : s.diags = []) : s.clearTraces = s := by
  cases s; cases hc; cases hd; rfl

section
variable (cs : List Command) (ds : List DiagEvent) (s : State)

theorem raiseException_prependTraces (e : FrameException) :
    (s.prependTraces cs ds).raiseException e = (s.raiseException e).prependTraces cs ds := by
  cases hd : s.cfg.hasDiag <;> simp [State.raiseException, State.diag, State.prependTraces, hd]

theorem acceptFrame_prependTraces (f : Frame) :
    (s.prependTraces cs ds).acceptFrame f = (s.acceptFrame f).prependTraces cs ds := by
  simp [acceptFrame_eq, State.prependTraces]

/-- PROCESS does not read the traces (R151). -/
theorem processFrame_prependTraces (f : Frame) :
    (s.prependTraces cs ds).processFrame f = (s.processFrame f).prependTraces cs ds := by
  unfold State.processFrame
  rw [prependTraces_cfg]
  cases validate s.cfg f with
  | structuralError => exact raiseException_prependTraces cs ds s .structural
  | checksumError => exact raiseException_prependTraces cs ds s .checksum
  | valid => exact acceptFrame_prependTraces cs ds s f

theorem execAAppend_prependTraces (b : Byte) :
    execAAppend b (s.prependTraces cs ds) =
      andThen (execAAppend b s) fun t => .next (t.prependTraces cs ds) := by
  by_cases h : s.len < frameLen
  · rw [execAAppend_eq s b h, execAAppend_eq (s.prependTraces cs ds) b h]; rfl
  · rw [execAAppend_fault s b h, execAAppend_fault (s.prependTraces cs ds) b h]; rfl

theorem execALast_prependTraces (b : Byte) :
    execALast b (s.prependTraces cs ds) =
      andThen (execALast b s) fun t => .next (t.prependTraces cs ds) := by
  have hframe : State.bufferFrame? { s.prependTraces cs ds with buf := (s.prependTraces cs ds).buf.write offCk b } =
      State.bufferFrame? { s with buf := s.buf.write offCk b } := rfl
  rw [execALast_eq, execALast_eq, hframe]
  cases State.bufferFrame? { s with buf := s.buf.write offCk b } with
  | none => rfl
  | some f => exact congrArg _ (processFrame_prependTraces cs ds s.bufferReset f)

/-- A byte-step does not read the traces (R33, R90): it commutes with older entries in front of them. -/
theorem byteStep_prependTraces (b : Byte) :
    byteStep b (s.prependTraces cs ds) =
      andThen (byteStep b s) fun t => .next (t.prependTraces cs ds) := by
  have hsel : byteStep b (s.prependTraces cs ds) =
      exec (decodeByte s.cfg s.st s.len b) (s.prependTraces cs ds) := rfl
  rw [hsel, byteStep]
  cases s.st <;> simp only [decodeByte]
  case idle => split <;> rfl
  case matched =>
    split
    · rfl
    · split <;> rfl
  case collecting =>
    split
    · exact execAAppend_prependTraces cs ds s b
    · exact execALast_prependTraces cs ds s b

end

/-- A byte-step from emptied traces gives the byte-step from the state itself: the older entries stay in front. -/
theorem byteStep_of_clearTraces {b : Byte} {s t : State} (h : byteStep b s.clearTraces = .next t) :
    byteStep b s = .next (t.prependTraces s.cmds s.diags) := by
  have hp := byteStep_prependTraces s.cmds s.diags s.clearTraces b
  rwa [prependTraces_clearTraces, h] at hp

@[simp] theorem runBytes_nil (s : State) : runBytes [] s = .next s := rfl

/-- A run over two sequences is the run over the first and then over the second (R157). -/
theorem runBytes_append (as bs : List Byte) (s : State) :
    runBytes (as ++ bs) s = andThen (runBytes as s) (runBytes bs) := by
  induction as generalizing s with
  | nil => rfl
  | cons a as ih =>
    have htail : runBytes (as ++ bs) = fun u => andThen (runBytes as u) (runBytes bs) := funext ih
    rw [List.cons_append, runBytes, runBytes, andThen_assoc, htail]

end Sys2Proof.Machine
end

section
/-! The cycle-level binding against the byte-steps (R6): what a clock edge can do, the relation that ties a cycle
state to the byte-steps' state, and its preservation by each edge and so by each run. -/

namespace Sys2Proof.Machine.Cycle

/-- Nothing is pending exactly when both latches are empty (R53). -/
theorem ready_iff (c : CycleState) : c.ready = true ↔ c.cmdLatch = [] ∧ c.diagLatch = [] := by
  simp [CycleState.ready]

/-- A clock edge without reset is one of three things: something pending goes out, a ready block waits, or a ready
block takes a byte and latches what its step put out (R53 to R55). -/
theorem clockEdge_cases {c c' : CycleState} {i : CycleIn} {o : CycleOut} (hr : i.rst = false)
    (h : clockEdge c i = .next (c', o)) :
    (c.ready = false ∧ (c', o) = emitEdge c) ∨
    (c.ready = true ∧ i.inValid = false ∧ c' = c ∧ o = ⟨true, none, none⟩) ∨
    (c.ready = true ∧ i.inValid = true ∧ ∃ t, byteStep i.inData c.core.clearTraces = .next t ∧
      c' = latchOutputs t ∧ o = ⟨true, none, none⟩) := by
  unfold clockEdge at h
  cases hrdy : c.ready with
  | false =>
    simp only [hr, hrdy] at h
    exact .inl ⟨rfl, by cases h; rfl⟩
  | true =>
    cases hv : i.inValid with
    | false =>
      simp only [hr, hrdy, hv] at h
      exact .inr (.inl ⟨rfl, rfl, by cases h; exact ⟨rfl, rfl⟩⟩)
    | true =>
      simp only [hr, hrdy, hv] at h
      cases hb : byteStep i.inData { c.core with cmds := [], diags := [] } with
      | next t =>
        rw [hb] at h
        exact .inr (.inr ⟨rfl, rfl, t, hb, by cases h; exact ⟨rfl, rfl⟩⟩)
      | fault r => rw [hb] at h; cases h
      | refused r => rw [hb] at h; cases h

/-- A run that goes on over a first cycle is that cycle's edge and then the run over the others. -/
theorem runCycles_cons_eq_next {i : CycleIn} {l : List CycleIn} {c c'' : CycleState} {os : List CycleOut}
    (h : runCycles (i :: l) c = .next (c'', os)) :
    ∃ c' o os', clockEdge c i = .next (c', o) ∧ runCycles l c' = .next (c'', os') ∧ os = o :: os' := by
  rw [runCycles] at h
  cases he : clockEdge c i with
  | fault r => rw [he] at h; cases h
  | refused r => rw [he] at h; cases h
  | next p =>
    obtain ⟨c', o⟩ := p
    cases hl : runCycles l c' with
    | fault r => simp only [he, hl] at h; cases h
    | refused r => simp only [he, hl] at h; cases h
    | next q =>
      simp only [he, hl] at h
      cases h
      exact ⟨c', o, q.2, rfl, hl, rfl⟩

/-- The bytes delivered over a first cycle and the others. -/
theorem deliveredBytes_cons (i : CycleIn) (l : List CycleIn) (o : CycleOut) (os : List CycleOut) :
    deliveredBytes (i :: l) (o :: os) = deliveredBytes [i] [o] ++ deliveredBytes l os := by
  simp [deliveredBytes]

/-- What goes out of a latch in one cycle and what stays in it are together what it held. -/
theorem head_word_append_tail {α β : Type} (f : α → β) (l : List α) :
    (l.head?.map f).toList ++ l.tail.map f = l.map f := by
  cases l <;> rfl

/-- The words a port carries over a first cycle and the others. -/
theorem filterMap_cons_eq_toList_append {α β : Type} (f : α → Option β) (a : α) (l : List α) :
    (a :: l).filterMap f = (f a).toList ++ l.filterMap f := by
  cases h : f a <;> simp [h]

/-- The refinement relation: the cycle-level block is in the byte-steps' state `s`, traces apart, and the words of
the traces of `s` are those the ports have carried (`cw`, `dw`) followed by what the latch holds. -/
structure Refines (cw : List (BitVec 35)) (dw : List (BitVec 7)) (c : CycleState) (s : State) : Prop where
  core : c.core = s.clearTraces
  cmds : s.cmds.map encodeCommand = cw ++ c.cmdLatch.map encodeCommand
  diags : s.diags.map encodeEvent = dw ++ c.diagLatch.map encodeEvent

/-- With an empty latch and empty traces the relation holds before anything is carried. -/
theorem refines_of_empty {c : CycleState} (hcl : c.cmdLatch = []) (hdl : c.diagLatch = [])
    (hc : c.core.cmds = []) (hd : c.core.diags = []) : Refines [] [] c c.core :=
  ⟨(clearTraces_of_nil hc hd).symm, by simp [hc, hcl], by simp [hd, hdl]⟩

/-- A cycle in which something goes out keeps the relation: the words move from the latch to the ports. -/
theorem refines_emitEdge {cw : List (BitVec 35)} {dw : List (BitVec 7)} {c : CycleState} {s : State}
    (h : Refines cw dw c s) :
    Refines (cw ++ (emitEdge c).2.cmdWord.toList) (dw ++ (emitEdge c).2.diagWord.toList) (emitEdge c).1 s where
  core := h.core
  cmds := by simp only [emitEdge, List.append_assoc, head_word_append_tail, h.cmds]
  diags := by simp only [emitEdge, List.append_assoc, head_word_append_tail, h.diags]

/-- A cycle in which a ready block takes a byte keeps the relation: the byte-step's output fills the latch. -/
theorem refines_latchOutputs {cw : List (BitVec 35)} {dw : List (BitVec 7)} {c : CycleState} {s : State}
    (hrdy : c.ready = true) (h : Refines cw dw c s) (t : State) :
    Refines cw dw (latchOutputs t) (t.prependTraces s.cmds s.diags) := by
  obtain ⟨hcl, hdl⟩ := (ready_iff c).mp hrdy
  refine ⟨rfl, ?_, ?_⟩
  · simp [latchOutputs, h.cmds, hcl]
  · simp [latchOutputs, h.diags, hdl]

/-- One clock edge without reset is a run over the byte it delivers, if any (the commuting diagram of R6). -/
theorem clockEdge_refines {cw : List (BitVec 35)} {dw : List (BitVec 7)} {c c' : CycleState} {s : State}
    {i : CycleIn} {o : CycleOut} (hr : i.rst = false) (h : Refines cw dw c s)
    (he : clockEdge c i = .next (c', o)) :
    ∃ t, runBytes (deliveredBytes [i] [o]) s = .next t ∧
      Refines (cw ++ o.cmdWord.toList) (dw ++ o.diagWord.toList) c' t := by
  obtain ⟨-, hemit⟩ | ⟨-, hv, rfl, rfl⟩ | ⟨hrdy, hv, t, hb, rfl, rfl⟩ := clockEdge_cases hr he
  · cases hemit
    exact ⟨s, by simp [deliveredBytes], refines_emitEdge h⟩
  · exact ⟨s, by simp [deliveredBytes, hv], by simpa using h⟩
  · have hcore : c.core.clearTraces = s.clearTraces := by rw [h.core]; rfl
    rw [hcore] at hb
    exact ⟨t.prependTraces s.cmds s.diags, by simp [deliveredBytes, hv, runBytes, byteStep_of_clearTraces hb],
      by simpa using refines_latchOutputs hrdy h t⟩

/-- A run of cycles without reset is a run over the bytes it delivers. -/
theorem runCycles_refines {cw : List (BitVec 35)} {dw : List (BitVec 7)} {is : List CycleIn} {c c' : CycleState}
    {os : List CycleOut} {s : State} (hr : ∀ i ∈ is, i.rst = false) (h : Refines cw dw c s)
    (hrun : runCycles is c = .next (c', os)) :
    ∃ t, runBytes (deliveredBytes is os) s = .next t ∧
      Refines (cw ++ os.filterMap CycleOut.cmdWord) (dw ++ os.filterMap CycleOut.diagWord) c' t := by
  induction is generalizing cw dw c s os with
  | nil =>
    cases hrun
    exact ⟨s, rfl, by simpa using h⟩
  | cons i l ih =>
    obtain ⟨c₁, o, os', hedge, hrest, rfl⟩ := runCycles_cons_eq_next hrun
    obtain ⟨hri, hrl⟩ := List.forall_mem_cons.mp hr
    obtain ⟨t₁, ht₁, h₁⟩ := clockEdge_refines hri h hedge
    obtain ⟨t, ht, hfin⟩ := ih hrl h₁ hrest
    refine ⟨t, ?_, ?_⟩
    · rw [deliveredBytes_cons, runBytes_append, ht₁, andThen_next, ht]
    · simpa only [filterMap_cons_eq_toList_append, List.append_assoc] using hfin

/-- Settles O60, by the refinement relation `Refines`, which every clock edge without reset keeps. -/
theorem cycleBindingRefinesTheByteSteps : Obligations.CycleBindingRefinesTheByteSteps := by
  intro is c c' os hr hcl hdl hc hd hrun
  obtain ⟨t, ht, hfin⟩ := runCycles_refines hr (refines_of_empty hcl hdl hc hd) hrun
  exact ⟨t, ht, hfin.core, hfin.cmds, hfin.diags⟩

end Sys2Proof.Machine.Cycle
end

section
/-! The rows that hand one command or one event to its sink. -/

namespace Sys2Proof.Machine

/-- Settles O45: each command row is `Apply` of its command, and `Apply` writes the command trace alone. -/
theorem commandRowsExtendTheCommandTrace : Obligations.CommandRowsExtendTheCommandTrace := by
  intro s i c h
  have happly : exec i s = .next (s.applyCmd c) := by
    obtain ⟨rfl, rfl⟩ | ⟨rfl, rfl⟩ | ⟨rfl, rfl⟩ | ⟨rfl, rfl⟩ | ⟨rfl, rfl⟩ := h <;> rfl
  exact ⟨_, happly, by simp [SameInputs, SameScan]⟩

/-- Settles O46: each event row is `Diag` of its event, and `Diag` writes the diagnostic trace alone. -/
theorem eventRowsExtendTheDiagnosticTrace : Obligations.EventRowsExtendTheDiagnosticTrace := by
  intro s i e h
  have hdiag : exec i s = .next (s.diag e) := by
    obtain ⟨rfl, rfl⟩ | ⟨rfl, rfl⟩ | ⟨rfl, rfl⟩ | ⟨rfl, rfl⟩ | ⟨rfl, rfl⟩ | ⟨rfl, rfl⟩ | ⟨rfl, rfl⟩ := h <;> rfl
  exact ⟨_, hdiag, by simp [SameInputs, SameScan]⟩

end Sys2Proof.Machine
end

section
/-! The invariants of R24: they hold after reset, every byte-step is total on them and keeps them, and so does every
step. -/

namespace Sys2Proof.Machine

/-- Settles O1: the values of R34, read off the state of reset. -/
theorem resetLeavesIdleEmptyAndSilent : Obligations.ResetLeavesIdleEmptyAndSilent :=
  ⟨rfl, rfl, read_nil, rfl, rfl, rfl, rfl, rfl, fun _ => rfl⟩

/-- With nothing received and nothing pending the invariants hold (R24, R34). -/
theorem inv_of_empty {s : State} (hst : s.st = .idle) (hlen : s.len = 0) (hbuf : s.buf = []) (hpend : s.pend = []) :
    s.Inv := by
  simp [State.Inv, hst, hlen, hbuf, hpend]

/-- Settles O2: the state of reset is the empty one. -/
theorem resetMeetsInvariants : Obligations.ResetMeetsInvariants :=
  ⟨inv_of_empty rfl rfl rfl rfl, rfl⟩

/-- A write at the next offset makes a buffer of the offsets 0 to n − 1 one of the offsets 0 to n. -/
theorem offsets_write_next {m : Memory} {n : Nat} (h : m.map Prod.fst = List.range n) (v : Byte) :
    (m.write n v).map Prod.fst = List.range (n + 1) := by
  obtain ⟨hm, hn⟩ := dense_eq_ofBytes h
  have hw : m.write n v = Memory.ofBytes 0 (m.map Prod.snd ++ [v]) := by
    simpa [hn, ← hm] using write_ofBytes_end 0 (m.map Prod.snd) v
  rw [hw, map_fst_ofBytes]
  simp [hn, List.range_eq_range']

/-- At (Collecting, 14) the buffer with the next byte at offset 14 is a frame: the bytes received, then that byte
(R97). -/
theorem bufferFrame?_of_inv {s : State} (h : s.Inv) (hlen : s.len = 14) (b : Byte) :
    ∃ f : Frame, f.bytes = s.bufBytes ++ [b] ∧
      State.bufferFrame? { s with buf := s.buf.write offCk b } = some f := by
  obtain ⟨hbuf, hn⟩ := inv_buf h
  refine ⟨⟨s.bufBytes ++ [b], by simp [State.bufBytes, ← hlen, ← hn]⟩, rfl, bufferFrame?_ofBytes _ _ ?_⟩
  have hw := write_ofBytes_end 0 (s.buf.map Prod.snd) b
  rw [← hbuf, hn, hlen] at hw
  exact hw

/-- The byte-step is total on the states that meet the invariants (R156): neither fault can arise. -/
theorem byteStep_total {s : State} (h : s.Inv) (b : Byte) : ∃ t, byteStep b s = .next t := by
  have ⟨_, _, _, hcoll, _⟩ := h
  unfold byteStep
  cases hst : s.st <;> simp only [decodeByte]
  case idle =>
    split
    · exact ⟨_, execASync0_eq s⟩
    · exact ⟨s, rfl⟩
  case matched =>
    split
    · exact ⟨_, execASync1_eq s⟩
    · split
      · exact ⟨_, execAResync_eq s⟩
      · exact ⟨s.bufferReset, rfl⟩
  case collecting =>
    obtain ⟨-, hle, -, -⟩ := hcoll hst
    split
    · next hlt => exact ⟨_, execAAppend_eq s b (by unfold frameLen; omega)⟩
    · next hge =>
      obtain ⟨f, -, hf⟩ := bufferFrame?_of_inv h (by omega) b
      exact ⟨s.bufferReset.processFrame f, by rw [exec, execALast_eq, hf]⟩

/-- PROCESS leaves the scan position and the buffer as they are (R151). -/
theorem processFrame_scan (f : Frame) (s : State) :
    (s.processFrame f).st = s.st ∧ (s.processFrame f).len = s.len ∧ (s.processFrame f).buf = s.buf := by
  obtain ⟨p, hp⟩ := processFrame_cases f s
  rw [hp]
  exact ⟨rfl, rfl, rfl⟩

/-- A byte-step keeps the invariants (R24, R90). -/
theorem byteStep_keeps_inv {b : Byte} {s t : State} (h : s.Inv) (hstep : byteStep b s = .next t) : t.Inv := by
  have ⟨hoff, hidle, hmatched, hcoll, hpend⟩ := h
  obtain ⟨hst, -, rfl⟩ | ⟨-, -, rfl⟩ | ⟨hst, -, rfl⟩ | ⟨-, -, -, -, rfl⟩ | ⟨-, -, -, rfl⟩ |
    ⟨hst, hlt, rfl⟩ | ⟨-, -, f, -, rfl⟩ := byteStep_cases hstep
  -- A.SYNC0
  · have hwrite := offsets_write_next hoff s.cfg.marker0
    rw [hidle hst] at hwrite
    simpa [State.Inv, hpend] using hwrite
  -- A.DROP
  · exact h
  -- A.SYNC1
  · obtain ⟨hlen, hmark0⟩ := hmatched hst
    have hwrite := offsets_write_next hoff s.cfg.marker1
    rw [hlen] at hwrite
    simpa [State.Inv, hpend, read_write_other, hmark0] using hwrite
  -- A.RESYNC
  · simp [State.Inv, hpend, Memory.read]
  -- A.MISS
  · exact inv_of_empty rfl rfl rfl hpend
  -- A.APPEND
  · obtain ⟨hge, -, hmark0, hmark1⟩ := hcoll hst
    have hread0 := read_write_other s.buf b (show 0 ≠ s.len by omega)
    have hread1 := read_write_other s.buf b (show 1 ≠ s.len by omega)
    exact ⟨offsets_write_next hoff b, nofun, nofun,
      fun _ => ⟨Nat.le_succ_of_le hge, hlt, hread0.trans hmark0, hread1.trans hmark1⟩, hpend⟩
  -- A.LAST
  · obtain ⟨hidle', hlen, hbuf⟩ := processFrame_scan f s.bufferReset
    exact inv_of_empty hidle' hlen hbuf (processFrame_pend f s.bufferReset hpend)

/-- Settles O7: reset empties the scan state, nothing is pending to hand out, waiting changes nothing, and a byte-step
keeps the invariants. -/
theorem stepKeepsScanInvariants : Obligations.StepKeepsScanInvariants := by
  intro s t h hstep
  obtain ⟨-, rfl⟩ | ⟨-, hne, -⟩ | ⟨-, -, -, rfl⟩ | ⟨b, rest, -, -, -, hbyte⟩ := step_cases hstep
  · exact inv_of_empty rfl rfl rfl rfl
  · obtain ⟨-, -, -, -, hpend⟩ := h
    exact absurd hpend hne
  · exact h
  · have hread : State.Inv { s with input := rest } := h
    exact byteStep_keeps_inv hread hbyte

/-- With reset released and something pending a step is SINK (R30, R152). -/
theorem step_eq_sink {s : State} (hr : s.rst = false) (hp : s.pend ≠ []) : step s = .next s.sink := by
  simp [step, pipelineStep, hr, hp]

/-- Settles O6: such a step is SINK, whose whole effect is `sink_eq`. -/
theorem pendingCommandsGoOutFirst : Obligations.PendingCommandsGoOutFirst := by
  intro s hr hp
  refine ⟨s.sink, step_eq_sink hr hp, ?_⟩
  simp [sink_eq, SameInputs, SameScan]

end Sys2Proof.Machine
end

section
/-! What a byte-step reads is the parameters and the scan state alone (R33, R155): it factors through the state with
the inputs and outputs of the run removed. -/

namespace Sys2Proof.Machine

/-- What a byte-step reads: the block's own state and its parameters, the rest of the run removed. -/
def State.blockOnly (s : State) : State :=
  { s with rst := false, input := [], cmds := [], diags := [] }

/-- The run of `s` moved on to the scan state of `u`, what `u` put out appended to its traces. -/
def State.advance (s u : State) : State :=
  { s with st := u.st, len := u.len, buf := u.buf, cmds := s.cmds ++ u.cmds, diags := s.diags ++ u.diags }

/-- A row that only sets the scan state sets the run's. -/
theorem next_eq_andThen_advance (s : State) (q : ScanState) (n : Nat) (m : Memory) :
    .next { s with st := q, len := n, buf := m } =
      andThen (.next { s.blockOnly with st := q, len := n, buf := m }) fun u => .next (s.advance u) := by
  simp [State.advance, State.blockOnly]

/-- States with the same parameters and block state are the same to a byte-step. -/
theorem blockOnly_eq {s₁ s₂ : State} (hcfg : s₁.cfg = s₂.cfg) (hst : s₁.st = s₂.st) (hlen : s₁.len = s₂.len)
    (hbuf : s₁.buf = s₂.buf) (hpend : s₁.pend = s₂.pend) : s₁.blockOnly = s₂.blockOnly := by
  simp [State.blockOnly, hcfg, hst, hlen, hbuf, hpend]

theorem execAAppend_eq_advance (b : Byte) (s : State) :
    execAAppend b s = andThen (execAAppend b s.blockOnly) fun u => .next (s.advance u) := by
  by_cases h : s.len < frameLen
  · rw [execAAppend_eq s b h, execAAppend_eq s.blockOnly b h]
    exact next_eq_andThen_advance s _ _ _
  · rw [execAAppend_fault s b h, execAAppend_fault s.blockOnly b h]
    rfl

theorem execALast_eq_advance (b : Byte) {s : State} (h : s.pend = []) :
    execALast b s = andThen (execALast b s.blockOnly) fun u => .next (s.advance u) := by
  have hframe : State.bufferFrame? { s.blockOnly with buf := s.blockOnly.buf.write offCk b } =
      State.bufferFrame? { s with buf := s.buf.write offCk b } := rfl
  rw [execALast_eq, execALast_eq, hframe]
  cases State.bufferFrame? { s with buf := s.buf.write offCk b } with
  | none => rfl
  | some f =>
    simp only [andThen_next, processFrame_eq f s.bufferReset h, processFrame_eq f s.blockOnly.bufferReset h]
    rfl

/-- A byte-step is the byte-step of the block alone, its scan state and outputs carried over to the run (R33, R90). -/
theorem byteStep_eq_advance (b : Byte) {s : State} (h : s.pend = []) :
    byteStep b s = andThen (byteStep b s.blockOnly) fun u => .next (s.advance u) := by
  have hsel : byteStep b s.blockOnly = exec (decodeByte s.cfg s.st s.len b) s.blockOnly := rfl
  rw [hsel, byteStep]
  cases s.st <;> simp only [decodeByte]
  case idle => split <;> exact next_eq_andThen_advance s _ _ _
  case matched =>
    split
    · exact next_eq_andThen_advance s _ _ _
    · split <;> exact next_eq_andThen_advance s _ _ _
  case collecting =>
    split
    · exact execAAppend_eq_advance b s
    · exact execALast_eq_advance b h

/-- Settles O55: both byte-steps are that of the one block, carried over to either run. -/
theorem onlyTheScanStateCarriesOver : Obligations.OnlyTheScanStateCarriesOver := by
  intro s₁ s₂ t₁ b hcfg hst hlen hbuf hp₁ hp₂ hstep
  rw [byteStep_eq_advance b hp₁, blockOnly_eq hcfg hst hlen hbuf (hp₁.trans hp₂.symm)] at hstep
  obtain ⟨u, hu, ht₁⟩ := andThen_eq_next hstep
  cases ht₁
  exact ⟨s₂.advance u, u.cmds, u.diags, by rw [byteStep_eq_advance b hp₂, hu, andThen_next],
    rfl, rfl, rfl, hp₂, hp₁, rfl, rfl, rfl, rfl⟩

end Sys2Proof.Machine
end

section
/-! What one byte puts out (R156), and the bound on the latch of the cycle-level binding that follows (R30, R52). -/

namespace Sys2Proof.Machine

/-- A sample gives at most two commands in each of the sixteen cells of R139: at most one by its y, at most one by its
x, and Stop only alone. -/
theorem mapCommands_length_le (cfg : Config) (smp : Sample) : (mapCommands cfg smp).length ≤ 2 := by
  unfold mapCommands
  cases classify cfg smp.y <;> cases classify cfg smp.x <;> simp

theorem frameCommands_length_le (cfg : Config) (f : Frame) : (frameCommands cfg f).length ≤ 2 := by
  unfold frameCommands
  split
  · exact mapCommands_length_le cfg _
  · exact Nat.zero_le 2

/-- There is an event for each command at most (R152, R176). -/
theorem eventsOf_length_le (cfg : Config) (cs : List Command) : (eventsOf cfg cs).length ≤ cs.length := by
  unfold eventsOf
  split <;> simp

theorem frameEvents_length_le (cfg : Config) (f : Frame) : (frameEvents cfg f).length ≤ 2 := by
  unfold frameEvents
  split
  · exact (eventsOf_length_le cfg _).trans (mapCommands_length_le cfg _)
  · split <;> simp
  · split <;> simp

/-- A.LAST is selected in Collecting after fourteen bytes only (R66). -/
theorem decodeByte_eq_aLast {cfg : Config} {q : ScanState} {n : Nat} {b v : Byte}
    (h : decodeByte cfg q n b = .aLast v) : q = .collecting ∧ ¬ n < 14 := by
  cases q <;> simp only [decodeByte] at h
  case idle => split at h <;> cases h
  case matched =>
    split at h
    · cases h
    · split at h <;> cases h
  case collecting =>
    split at h
    · cases h
    · next hge => exact ⟨rfl, hge⟩

/-- Only the fifteenth byte hands a frame on (R97). -/
theorem frameHandedOn_eq_none {s : State} {b : Byte} (h : s.st = .collecting → s.len < 14) :
    frameHandedOn s b = none := by
  unfold frameHandedOn
  split
  · next hlast =>
    obtain ⟨hst, hge⟩ := decodeByte_eq_aLast hlast
    exact absurd (h hst) hge
  · rfl

/-- The fifteenth byte hands on the frame of the buffer with it at offset 14 (R97). -/
theorem frameHandedOn_last {s : State} (b : Byte) (hst : s.st = .collecting) (hge : ¬ s.len < 14) :
    frameHandedOn s b = State.bufferFrame? { s with buf := s.buf.write offCk b } := by
  simp [frameHandedOn, decodeByte, hst, hge]

/-- A byte-step that hands no frame on puts nothing out; one that hands a frame on puts out what the frame causes
(R97, R151). -/
theorem byteStep_traces {b : Byte} {s t : State} (h : byteStep b s = .next t) :
    (frameHandedOn s b = none ∧ t.cmds = s.cmds ∧ t.diags = s.diags) ∨
    ∃ f, frameHandedOn s b = some f ∧
      t.cmds = s.cmds ++ frameCommands s.cfg f ∧ t.diags = s.diags ++ frameEvents s.cfg f := by
  obtain ⟨hst, -, rfl⟩ | ⟨hst, -, rfl⟩ | ⟨hst, -, rfl⟩ | ⟨hst, -, -, -, rfl⟩ | ⟨hst, -, -, rfl⟩ |
    ⟨-, hlt, rfl⟩ | ⟨hst, hge, f, hf, rfl⟩ := byteStep_cases h
  iterate 5 exact .inl ⟨frameHandedOn_eq_none (by simp [hst]), rfl, rfl⟩
  · exact .inl ⟨frameHandedOn_eq_none fun _ => hlt, rfl, rfl⟩
  · obtain ⟨p, hp⟩ := processFrame_cases f s.bufferReset
    exact .inr ⟨f, (frameHandedOn_last b hst hge).trans hf, by rw [hp]; exact ⟨rfl, rfl⟩⟩

/-- From empty traces a byte-step leaves at most two commands and two events on them (R156). -/
theorem byteStep_outputs_le {b : Byte} {s t : State} (hc : s.cmds = []) (hd : s.diags = [])
    (h : byteStep b s = .next t) : t.cmds.length ≤ 2 ∧ t.diags.length ≤ 2 := by
  obtain ⟨-, htc, htd⟩ | ⟨f, -, htc, htd⟩ := byteStep_traces h
  · simp [htc, htd, hc, hd]
  · simpa [htc, htd, hc, hd] using ⟨frameCommands_length_le s.cfg f, frameEvents_length_le s.cfg f⟩

namespace Cycle

/-- The invariant of the cycle-level binding: that of R24 for the block, and the bound on the latch (R30). -/
structure CycleState.Inv (c : CycleState) : Prop where
  core : c.core.Inv
  cmdLatch : c.cmdLatch.length ≤ 2
  diagLatch : c.diagLatch.length ≤ 2

/-- Reset empties the latch and leaves the block's reset state (R191). -/
theorem resetEdge_inv (c : CycleState) : (resetEdge c).1.Inv where
  core := inv_of_empty rfl rfl rfl rfl
  cmdLatch := Nat.zero_le 2
  diagLatch := Nat.zero_le 2

/-- A cycle in which something goes out only shortens the latch (R54, R55). -/
theorem emitEdge_inv {c : CycleState} (h : c.Inv) : (emitEdge c).1.Inv where
  core := h.core
  cmdLatch := (List.tail_sublist c.cmdLatch).length_le.trans h.cmdLatch
  diagLatch := (List.tail_sublist c.diagLatch).length_le.trans h.diagLatch

/-- A latch filled by a byte-step from a state with the invariants of R24 holds one frame's output at most. -/
theorem latchOutputs_inv {b : Byte} {s t : State} (h : s.Inv) (hstep : byteStep b s.clearTraces = .next t) :
    (latchOutputs t).Inv := by
  have hclear : s.clearTraces.Inv := h
  obtain ⟨hcmds, hdiags⟩ := byteStep_outputs_le rfl rfl hstep
  have hinv : t.Inv := byteStep_keeps_inv hclear hstep
  exact ⟨hinv, hcmds, hdiags⟩

theorem clockEdge_of_rst (c : CycleState) {i : CycleIn} (hr : i.rst = true) :
    clockEdge c i = .next (resetEdge c) := by
  simp [clockEdge, hr]

/-- A clock edge keeps the invariant (R30, R52). -/
theorem clockEdge_keeps_inv {c c' : CycleState} {i : CycleIn} {o : CycleOut} (h : c.Inv)
    (hedge : clockEdge c i = .next (c', o)) : c'.Inv := by
  cases hr : i.rst with
  | true =>
    rw [clockEdge_of_rst c hr] at hedge
    cases hedge
    exact resetEdge_inv c
  | false =>
    obtain ⟨-, hemit⟩ | ⟨-, -, rfl, -⟩ | ⟨-, -, t, hstep, rfl, -⟩ := clockEdge_cases hr hedge
    · cases hemit
      exact emitEdge_inv h
    · exact h
    · exact latchOutputs_inv h.core hstep

/-- No clock edge stops a block that meets the invariants of R24, since no byte-step does. -/
theorem clockEdge_total {c : CycleState} (h : c.core.Inv) (i : CycleIn) :
    ∃ c' o, clockEdge c i = .next (c', o) := by
  obtain ⟨t, ht⟩ := byteStep_total (s := c.core.clearTraces) h i.inData
  unfold State.clearTraces at ht
  unfold clockEdge
  rw [ht]
  split
  · exact ⟨_, _, rfl⟩
  · split
    · split <;> exact ⟨_, _, rfl⟩
    · exact ⟨_, _, rfl⟩

/-- From the invariant the clock runs over any cycles, one output a cycle, and leaves the invariant (R52). -/
theorem runCycles_total (is : List CycleIn) {c : CycleState} (h : c.Inv) :
    ∃ c' os, runCycles is c = .next (c', os) ∧ os.length = is.length ∧ c'.Inv := by
  induction is generalizing c with
  | nil => exact ⟨c, [], rfl, rfl, h⟩
  | cons i is ih =>
    obtain ⟨c₁, o, hedge⟩ := clockEdge_total h.core i
    obtain ⟨c', os, hrun, hlen, hinv⟩ := ih (clockEdge_keeps_inv h hedge)
    exact ⟨c', o :: os, by simp only [runCycles, hedge, hrun], by simp [hlen], hinv⟩

/-- Settles O59, by the invariant `CycleState.Inv`, which every edge keeps and on which every edge goes on. -/
theorem latchHoldsAtMostOneFramesOutput : Obligations.LatchHoldsAtMostOneFramesOutput := by
  refine ⟨fun c c' i o hcore hcmds hdiags hedge => ?_, fun ports n c hcore hcmds hdiags => ?_⟩
  · obtain ⟨hcore', hcmds', hdiags'⟩ := clockEdge_keeps_inv ⟨hcore, hcmds, hdiags⟩ hedge
    exact ⟨hcore', hcmds', hdiags'⟩
  · obtain ⟨c', os, hrun, hlen, hcore', hcmds', hdiags'⟩ :=
      runCycles_total ((List.range n).map ports) ⟨hcore, hcmds, hdiags⟩
    exact ⟨c', os, hrun, by simpa using hlen, hcore', hcmds', hdiags'⟩

end Cycle

end Sys2Proof.Machine
end

section
/-! What a step keeps (R29, R40, R41, R46): the buffer's canonical form, the parameters and the reset level, the
undelivered bytes but the one it takes, and all that was put out. -/

namespace Sys2Proof.Machine

/-- A byte-step keeps the buffer's canonical form: it writes at an offset inside 0..14 or resets the buffer. -/
theorem byteStep_keeps_wf {b : Byte} {s t : State} (h : Memory.wf s.buf = true) (hstep : byteStep b s = .next t) :
    Memory.wf t.buf = true := by
  obtain ⟨-, -, rfl⟩ | ⟨-, -, rfl⟩ | ⟨-, -, rfl⟩ | ⟨-, -, -, -, rfl⟩ | ⟨-, -, -, rfl⟩ |
    ⟨-, hlt, rfl⟩ | ⟨-, -, f, -, rfl⟩ := byteStep_cases hstep
  -- A.SYNC0
  · exact write_wf s.buf 0 s.cfg.marker0 (by decide) h
  -- A.DROP
  · exact h
  -- A.SYNC1
  · exact write_wf s.buf 1 s.cfg.marker1 (by decide) h
  -- A.RESYNC
  · rfl
  -- A.MISS
  · rfl
  -- A.APPEND
  · exact write_wf s.buf s.len b (by unfold frameLen; omega) h
  -- A.LAST
  · obtain ⟨-, -, hbuf⟩ := processFrame_scan f s.bufferReset
    rw [hbuf]
    rfl

/-- Settles O8: reset empties the buffer, SINK and waiting leave it, and a byte-step keeps its form. -/
theorem stepKeepsBufferCanonical : Obligations.StepKeepsBufferCanonical := by
  intro s t h hstep
  obtain ⟨-, rfl⟩ | ⟨-, -, rfl⟩ | ⟨-, -, -, rfl⟩ | ⟨b, rest, -, -, -, hbyte⟩ := step_cases hstep
  · rfl
  · rw [sink_eq]
    exact h
  · exact h
  · exact byteStep_keeps_wf (s := { s with input := rest }) h hbyte

/-- A byte-step changes nothing the environment gives (R29, R46): the byte is already taken when it runs. -/
theorem byteStep_sameInputs {b : Byte} {s t : State} (h : byteStep b s = .next t) : SameInputs s t := by
  obtain ⟨-, -, rfl⟩ | ⟨-, -, rfl⟩ | ⟨-, -, rfl⟩ | ⟨-, -, -, -, rfl⟩ | ⟨-, -, -, rfl⟩ |
    ⟨-, -, rfl⟩ | ⟨-, -, f, -, rfl⟩ := byteStep_cases h
  iterate 6 exact ⟨rfl, rfl, rfl⟩
  · obtain ⟨p, hp⟩ := processFrame_cases f s.bufferReset
    rw [hp]
    exact ⟨rfl, rfl, rfl⟩

/-- With reset released, nothing pending and a byte waiting, a step takes that byte and runs its byte-step (R90). -/
theorem step_eq_byteStep {s : State} {b : Byte} {rest : List Byte} (hr : s.rst = false) (hp : s.pend = [])
    (hi : s.input = b :: rest) : step s = byteStep b { s with input := rest } := by
  simp [step, pipelineStep, hr, hp, hi]

/-- A step leaves the environment's inputs as they were, or takes the first undelivered byte and leaves the rest of
them (R29, R46). -/
theorem step_sameInputs {s t : State} (h : step s = .next t) :
    SameInputs s t ∨
    ∃ b rest, s.rst = false ∧ s.pend = [] ∧ s.input = b :: rest ∧ SameInputs { s with input := rest } t := by
  obtain ⟨-, rfl⟩ | ⟨-, -, rfl⟩ | ⟨-, -, -, rfl⟩ | ⟨b, rest, hr, hp, hi, hbyte⟩ := step_cases h
  · exact .inl ⟨rfl, rfl, rfl⟩
  · rw [sink_eq]
    exact .inl ⟨rfl, rfl, rfl⟩
  · exact .inl ⟨rfl, rfl, rfl⟩
  · exact .inr ⟨b, rest, hr, hp, hi, byteStep_sameInputs hbyte⟩

/-- Settles O9: a step that takes a byte is that byte's byte-step on the state without it, and by `step_sameInputs` it
is the only one that changes an input. -/
theorem stepConsumesOneByteAndKeepsParameters : Obligations.StepConsumesOneByteAndKeepsParameters := by
  refine ⟨fun s t b rest hr hp hi hstep => ?_, fun s t hidle hstep => ?_, fun s t hstep => ?_⟩
  · rw [step_eq_byteStep hr hp hi] at hstep
    obtain ⟨-, -, hinput⟩ := byteStep_sameInputs hstep
    exact hinput
  · obtain ⟨-, -, hinput⟩ | ⟨b, rest, hr, hp, hi, -⟩ := step_sameInputs hstep
    · exact hinput
    · simp [hr, hp, hi] at hidle
  · obtain ⟨hcfg, hrst, -⟩ | ⟨_, _, -, -, -, hcfg, hrst, -⟩ := step_sameInputs hstep
    · exact ⟨hcfg, hrst⟩
    · exact ⟨hcfg, hrst⟩

/-- A byte-step only appends to the two traces (R48, R49). -/
theorem byteStep_extends_traces {b : Byte} {s t : State} (h : byteStep b s = .next t) :
    s.cmds <+: t.cmds ∧ s.diags <+: t.diags := by
  obtain ⟨-, hcmds, hdiags⟩ | ⟨f, -, hcmds, hdiags⟩ := byteStep_traces h
  · simp [hcmds, hdiags]
  · simp [hcmds, hdiags]

/-- Settles O10: reset and waiting leave the traces, SINK and a byte-step append to them. -/
theorem stepOnlyExtendsTraces : Obligations.StepOnlyExtendsTraces := by
  intro s t hstep
  obtain ⟨-, rfl⟩ | ⟨-, -, rfl⟩ | ⟨-, -, -, rfl⟩ | ⟨b, rest, -, -, -, hbyte⟩ := step_cases hstep
  · simp
  · simp [sink_eq]
  · simp
  · exact byteStep_extends_traces (s := { s with input := rest }) hbyte

end Sys2Proof.Machine
end

section
/-! The accesses no operation makes under the invariants of R24 (R12, R41). -/

namespace Sys2Proof.Machine

/-- A buffer with one of the fifteen bytes missing is no frame (R12, R97). -/
theorem bufferFrame?_eq_none {s : State} {i : Nat} (hi : i < frameLen) (hread : s.buf.read i = none) :
    s.bufferFrame? = none := by
  rw [Option.eq_none_iff_forall_ne_some]
  intro f hf
  have hbytes : f.bytes = (List.range frameLen).filterMap s.buf.read := ofList?_eq_some.mp hf
  have hlen : ((List.range frameLen).filterMap s.buf.read).length = (List.range frameLen).length := by
    rw [← hbytes, f.length_eq]
    rfl
  have hsome := List.filterMap_length_eq_length.mp hlen i (List.mem_range.mpr hi)
  simp [hread] at hsome

/-- Settles O24: A.APPEND stores at offset `len`, which does not exist; A.LAST writes offset 14 alone, so a byte missing
before it is still missing when the frame is taken. -/
theorem accessesTheRulesExcludeStop : Obligations.AccessesTheRulesExcludeStop := by
  refine ⟨fun s b hlen => execAAppend_fault s b (by unfold frameLen; omega), fun s b i hi hread => ?_⟩
  have hmissing : (s.buf.write offCk b).read i = none := by
    rw [read_write_other s.buf b (by unfold offCk; omega), hread]
  have hnone : State.bufferFrame? { s with buf := s.buf.write offCk b } = none :=
    bufferFrame?_eq_none (by unfold frameLen; omega) hmissing
  rw [exec, execALast_eq, hnone]

end Sys2Proof.Machine
end

section
/-! The diagnostic sink is only written to (R49, R176): what a byte-step and a run do without it is what they do with
it, the diagnostic trace apart. -/

namespace Sys2Proof.Machine

/-- The state without the diagnostic sink, its diagnostic trace being `ds`. -/
def State.withoutSink (ds : List DiagEvent) (s : State) : State :=
  { s with cfg := { s.cfg with hasDiag := false }, diags := ds }

section
variable (ds : List DiagEvent) (s : State)

theorem raiseException_withoutSink (e : FrameException) :
    (s.withoutSink ds).raiseException e = (s.raiseException e).withoutSink ds := by
  cases hd : s.cfg.hasDiag <;> simp [State.raiseException, State.diag, State.withoutSink, hd]

/-- The Valid arm of PROCESS takes its commands from the frame and the other parameters, and has no events without the
sink (R146, R176). -/
theorem acceptFrame_withoutSink (f : Frame) :
    (s.withoutSink ds).acceptFrame f = (s.acceptFrame f).withoutSink ds := by
  have hmap : mapCommands (s.withoutSink ds).cfg (decodeSampleOf f) = mapCommands s.cfg (decodeSampleOf f) := rfl
  rw [acceptFrame_eq, acceptFrame_eq, hmap]
  simp [State.withoutSink, eventsOf]

theorem processFrame_withoutSink (f : Frame) :
    (s.withoutSink ds).processFrame f = (s.processFrame f).withoutSink ds := by
  have hval : validate (s.withoutSink ds).cfg f = validate s.cfg f := rfl
  unfold State.processFrame
  rw [hval]
  cases validate s.cfg f with
  | structuralError => exact raiseException_withoutSink ds s .structural
  | checksumError => exact raiseException_withoutSink ds s .checksum
  | valid => exact acceptFrame_withoutSink ds s f

theorem execAAppend_withoutSink (b : Byte) :
    execAAppend b (s.withoutSink ds) = andThen (execAAppend b s) fun t => .next (t.withoutSink ds) := by
  by_cases h : s.len < frameLen
  · rw [execAAppend_eq s b h, execAAppend_eq (s.withoutSink ds) b h]
    rfl
  · rw [execAAppend_fault s b h, execAAppend_fault (s.withoutSink ds) b h]
    rfl

theorem execALast_withoutSink (b : Byte) :
    execALast b (s.withoutSink ds) = andThen (execALast b s) fun t => .next (t.withoutSink ds) := by
  have hframe : State.bufferFrame? { s.withoutSink ds with buf := (s.withoutSink ds).buf.write offCk b } =
      State.bufferFrame? { s with buf := s.buf.write offCk b } := rfl
  rw [execALast_eq, execALast_eq, hframe]
  cases State.bufferFrame? { s with buf := s.buf.write offCk b } with
  | none => rfl
  | some f => exact congrArg _ (processFrame_withoutSink ds s.bufferReset f)

/-- A byte-step commutes with removing the sink (R49, R90): neither the selection nor the scan state reads `HAS_DIAG`. -/
theorem byteStep_withoutSink (b : Byte) :
    byteStep b (s.withoutSink ds) = andThen (byteStep b s) fun t => .next (t.withoutSink ds) := by
  have hsel : byteStep b (s.withoutSink ds) =
      exec (decodeByte s.cfg s.st s.len b) (s.withoutSink ds) := rfl
  rw [hsel, byteStep]
  cases s.st <;> simp only [decodeByte]
  case idle => split <;> rfl
  case matched =>
    split
    · rfl
    · split <;> rfl
  case collecting =>
    split
    · exact execAAppend_withoutSink ds s b
    · exact execALast_withoutSink ds s b

/-- A run commutes with removing the sink (R157, R176). -/
theorem runBytes_withoutSink (bs : List Byte) :
    runBytes bs (s.withoutSink ds) = andThen (runBytes bs s) fun t => .next (t.withoutSink ds) := by
  induction bs generalizing s with
  | nil => rfl
  | cons b bs ih =>
    have htail : (fun t : State => runBytes bs (t.withoutSink ds)) =
        fun t => andThen (runBytes bs t) fun u => .next (u.withoutSink ds) := funext ih
    rw [runBytes, runBytes, byteStep_withoutSink, andThen_assoc, andThen_assoc, ← htail]
    rfl

end

/-- Settles O56: the run without the sink is the run with it, its last state without the sink. -/
theorem diagnosticSinkIsObservationalOnly : Obligations.DiagnosticSinkIsObservationalOnly := by
  intro bs s t hrun
  have hquiet := runBytes_withoutSink s.diags s bs
  rw [hrun, andThen_next] at hquiet
  exact ⟨t.withoutSink s.diags, hquiet, rfl, rfl, rfl, rfl, rfl, rfl⟩

end Sys2Proof.Machine
end

section
/-! `in_ready` in every cycle (R53). -/

namespace Sys2Proof.Machine.Cycle

/-- Without reset a cycle's `in_ready` is 1 exactly when nothing is pending before its edge (R53). -/
theorem clockEdge_inReady {c c' : CycleState} {i : CycleIn} {o : CycleOut} (hr : i.rst = false)
    (h : clockEdge c i = .next (c', o)) : o.inReady = c.ready := by
  obtain ⟨hrdy, hemit⟩ | ⟨hrdy, -, -, rfl⟩ | ⟨hrdy, -, -, -, -, rfl⟩ := clockEdge_cases hr h
  · cases hemit
    exact hrdy.symm
  · exact hrdy.symm
  · exact hrdy.symm

/-- Settles O58: `in_ready` is 0 in reset and otherwise `CycleState.ready`, and a ready block without a byte waits. -/
theorem readyExactlyWhenNothingIsPending : Obligations.ReadyExactlyWhenNothingIsPending := by
  refine ⟨fun c c' i o hedge => ?_, fun c d hcl hdl => ?_⟩
  · cases hr : i.rst with
    | true =>
      rw [clockEdge_of_rst c hr] at hedge
      cases hedge
      simp
    | false => simp [clockEdge_inReady hr hedge, ready_iff]
  · have hrdy : c.ready = true := (ready_iff c).mpr ⟨hcl, hdl⟩
    simp [clockEdge, hrdy]

end Sys2Proof.Machine.Cycle
end

section
/-! The 120-bit word of a frame (R62): its slices are the frame's bytes and fields, and it and the frame determine
each other. -/

namespace Sys2Proof.Machine

/-- A byte sequence read least significant byte first is a number written in base 256 (R12, R43). -/
theorem leNat_eq_ofDigits (l : List Byte) : leNat l = Nat.ofDigits 256 (l.map BitVec.toNat) := by
  induction l with
  | nil => rfl
  | cons b l ih => simp [leNat, Nat.ofDigits_cons, ih]

/-- A byte is a digit in base 256. -/
theorem digit_lt {l : List Byte} : ∀ d ∈ l.map BitVec.toNat, d < 256 := by
  simpa using fun b _ => b.isLt

/-- The number of a frame's bytes fits in its 120 bits (R62). -/
theorem toNat_frameBits (f : Frame) : (frameBits f).toNat = leNat f.bytes := by
  have hlt : leNat f.bytes < 256 ^ 15 := by
    have h := Nat.ofDigits_lt_base_pow_length (by decide) (digit_lt (l := f.bytes))
    rwa [← leNat_eq_ofDigits, List.length_map, f.length_eq] at h
  exact (BitVec.toNat_ofNat ..).trans (Nat.mod_eq_of_lt hlt)

/-- `MemRead` is a slice of the number of the frame's bytes (R12). -/
theorem memRead_eq (f : Frame) (off n : Nat) : memRead f off n = leNat f.bytes / 256 ^ off % 256 ^ n := by
  rw [memRead, leNat_eq_ofDigits, leNat_eq_ofDigits, List.map_take, List.map_drop,
    Nat.ofDigits_div_pow_eq_ofDigits_drop _ (by decide) _ digit_lt, Nat.ofDigits_mod_pow_eq_ofDigits_take _ (by decide)]
  exact fun d hd => digit_lt d (List.mem_of_mem_drop hd)

/-- `n` bytes of the frame from an offset on are a contiguous slice of its word (R62). -/
theorem toNat_extractLsb'_frameBits (f : Frame) (off n : Nat) :
    ((frameBits f).extractLsb' (8 * off) (8 * n)).toNat = memRead f off n := by
  rw [BitVec.extractLsb'_toNat, toNat_frameBits, memRead_eq, Nat.shiftRight_eq_div_pow, Nat.pow_mul, Nat.pow_mul]

/-- Reading one byte of a frame (R11, R12). -/
theorem memRead_one (f : Frame) (i : Fin 15) : memRead f i 1 = (f.byte i).toNat := by
  have hi : i.val < f.bytes.length := f.length_eq.symm ▸ i.isLt
  rw [memRead, List.drop_eq_getElem_cons hi]
  rfl

/-- Byte `i` of a frame's word is byte `i` of the frame (R62). -/
theorem frameBitsByte_frameBits (f : Frame) (i : Fin 15) : frameBitsByte (frameBits f) i = f.byte i :=
  BitVec.eq_of_toNat_eq ((toNat_extractLsb'_frameBits f i 1).trans (memRead_one f i))

/-- The word of a field is a slice of the frame's word (R62, R121). -/
theorem extractLsb'_frameBits_eq_fieldWord (f : Frame) (off : Nat) :
    (frameBits f).extractLsb' (8 * off) 32 = fieldWord f off := by
  have h := toNat_extractLsb'_frameBits f off 4
  rw [fieldWord, ← h, BitVec.ofNat_toNat, BitVec.setWidth_eq]

/-- Bit `j` of byte `i` of a 120-bit word is its bit `8i + j`. -/
theorem getLsbD_frameBitsByte (v : BitVec 120) (i : Nat) {j : Nat} (hj : j < 8) :
    (frameBitsByte v i).getLsbD j = v.getLsbD (8 * i + j) := by
  simp [frameBitsByte, hj]

/-- Settles O37: every slice of the frame's word is what is read at the slice's offset. -/
theorem frameFieldsAreContiguousSlices : Obligations.FrameFieldsAreContiguousSlices := fun f =>
  ⟨fun i j hj => by rw [← frameBitsByte_frameBits, getLsbD_frameBitsByte _ _ hj],
    frameBitsByte_frameBits f 0, frameBitsByte_frameBits f 1,
    extractLsb'_frameBits_eq_fieldWord f offX, extractLsb'_frameBits_eq_fieldWord f offY,
    extractLsb'_frameBits_eq_fieldWord f offZ, frameBitsByte_frameBits f 14⟩

/-- Frames with the same fifteen bytes are the same. -/
theorem frame_eq_of_byte {f g : Frame} (h : ∀ i, f.byte i = g.byte i) : f = g := by
  obtain ⟨l, hl⟩ := f
  obtain ⟨m, hm⟩ := g
  have hlm : l = m := List.ext_getElem (hl.trans hm.symm) fun i hi _ => h ⟨i, hl ▸ hi⟩
  subst hlm
  rfl

/-- The bytes of a 120-bit word's frame are the word's bytes (R62). -/
theorem byte_frameOfBits (v : BitVec 120) (i : Fin 15) : (frameOfBits v).byte i = frameBitsByte v i := by
  fin_cases i <;> rfl

/-- The frame of a frame's word is that frame (R62). -/
@[simp] theorem frameOfBits_frameBits (f : Frame) : frameOfBits (frameBits f) = f :=
  frame_eq_of_byte fun i => (byte_frameOfBits _ i).trans (frameBitsByte_frameBits f i)

/-- The word of a 120-bit word's frame is that word (R62): bit k of either is bit k mod 8 of byte k / 8. -/
@[simp] theorem frameBits_frameOfBits (v : BitVec 120) : frameBits (frameOfBits v) = v := by
  refine BitVec.eq_of_getLsbD_eq fun k hk => ?_
  have hbyte := (frameBitsByte_frameBits (frameOfBits v) ⟨k / 8, by omega⟩).trans (byte_frameOfBits v _)
  have hbit := congrArg (BitVec.getLsbD · (k % 8)) hbyte
  simpa [getLsbD_frameBitsByte _ _ (Nat.mod_lt k (by decide)), Nat.div_add_mod] using hbit

end Sys2Proof.Machine
end

section
/-! The packed words of a sample, a command and an event (R68 to R71): their fields. -/

namespace Sys2Proof.Machine

/-- The sample of a sample's word is that sample (R68, log entry 13). -/
@[simp] theorem sampleOfBits_sampleBits (smp : Sample) : sampleOfBits (sampleBits smp) = smp := by
  have hx : (sampleBits smp).extractLsb' 0 32 = smp.x := BitVec.extractLsb'_append_eq_right
  have hy : (sampleBits smp).extractLsb' 32 32 = smp.y :=
    (BitVec.extractLsb'_append_eq_of_le (by decide)).trans BitVec.extractLsb'_append_eq_right
  have hz : (sampleBits smp).extractLsb' 64 32 = smp.z :=
    (BitVec.extractLsb'_append_eq_of_le (by decide)).trans BitVec.extractLsb'_append_eq_left
  rw [sampleOfBits, hx, hy, hz]

/-- The word of a 96-bit word's sample is that word (R68, log entry 13). -/
@[simp] theorem sampleBits_sampleOfBits (v : BitVec 96) : sampleBits (sampleOfBits v) = v := by
  have hzy : v.extractLsb' 64 32 ++ v.extractLsb' 32 32 = v.extractLsb' 32 64 :=
    BitVec.extractLsb'_append_extractLsb'_eq_extractLsb' rfl
  have hall : v.extractLsb' 32 64 ++ v.extractLsb' 0 32 = v.extractLsb' 0 96 :=
    BitVec.extractLsb'_append_extractLsb'_eq_extractLsb' rfl
  exact (congrArg (· ++ v.extractLsb' 0 32) hzy).trans (hall.trans BitVec.extractLsb'_eq_self)

end Sys2Proof.Machine

namespace Sys2Proof

/-- A directional command packs its tag and its two duties (R69, R70). -/
theorem encodeCommand_directional {c : Command} {l r : Nat}
    (hc : c = .forward l r ∨ c = .backward l r ∨ c = .left l r ∨ c = .right l r) :
    encodeCommand c = packCommand (tagCode c.tag) (BitVec.ofNat 16 l) (BitVec.ofNat 16 r) := by
  rcases hc with rfl | rfl | rfl | rfl <;> rfl

/-- Settles O47: the fields are those of `packCommand`, a duty below 2^16 is not cut, and the twelve words are closed. -/
theorem outputWordsArePackedAsTabled : Obligations.OutputWordsArePackedAsTabled := by
  refine ⟨fun l r hl hr c hc => ?_, by decide⟩
  simpa [encodeCommand_directional hc] using ⟨hl, hr⟩

end Sys2Proof
end

section
/-! Decode and encode agree, format by format (R66, R68, R70, R71): an operation is what a word decodes to exactly when
it is well formed and has that word, for a byte at the scan position its row admits. -/

namespace Sys2Proof

open Machine

section
variable (cfg : Config)

/-- A.SYNC0's row of R66. -/
theorem decodeByte_idle_marker0 (len : Nat) : decodeByte cfg .idle len cfg.marker0 = .aSync0 := if_pos rfl

/-- A.DROP's row of R66. -/
theorem decodeByte_idle_other {b : Byte} (len : Nat) (h : b ≠ cfg.marker0) :
    decodeByte cfg .idle len b = .aDrop b := if_neg h

/-- A.SYNC1's row of R66. -/
theorem decodeByte_matched_marker1 (len : Nat) : decodeByte cfg .matched len cfg.marker1 = .aSync1 := if_pos rfl

/-- A.RESYNC's row of R66. -/
theorem decodeByte_matched_marker0 (len : Nat) (h : cfg.marker0 ≠ cfg.marker1) (hr : cfg.reeval = true) :
    decodeByte cfg .matched len cfg.marker0 = .aResync :=
  (if_neg h).trans (if_pos ⟨hr, rfl⟩)

/-- A.MISS's row of R66. -/
theorem decodeByte_matched_other {b : Byte} (len : Nat) (h1 : b ≠ cfg.marker1)
    (h0 : b ≠ cfg.marker0 ∨ cfg.reeval = false) : decodeByte cfg .matched len b = .aMiss b := by
  have hno : ¬(cfg.reeval = true ∧ b = cfg.marker0) := fun ⟨hr, hb⟩ =>
    h0.elim (· hb) fun hf => by simp [hf] at hr
  exact (if_neg h1).trans (if_neg hno)

/-- A.APPEND's row of R66. -/
theorem decodeByte_collecting_append {len : Nat} (b : Byte) (h : len < 14) :
    decodeByte cfg .collecting len b = .aAppend b := if_pos h

/-- A.LAST's row of R66. -/
theorem decodeByte_collecting_last {len : Nat} (b : Byte) (h : ¬ len < 14) :
    decodeByte cfg .collecting len b = .aLast b := if_neg h

end

/-- Settles O12: the seven rows, one lemma each. -/
theorem byteSelectsItsTableRow : Obligations.ByteSelectsItsTableRow := fun cfg len b =>
  ⟨fun h => h ▸ decodeByte_idle_marker0 cfg len, decodeByte_idle_other cfg len,
    fun h => h ▸ decodeByte_matched_marker1 cfg len,
    fun h1 h0 hr => h0 ▸ decodeByte_matched_marker0 cfg len (h0 ▸ h1) hr,
    decodeByte_matched_other cfg len, decodeByte_collecting_append cfg b,
    fun h => decodeByte_collecting_last cfg b (by omega)⟩

section
variable {cfg : Config} {i : Instr}

/-- A well-formed byte operation is what its byte selects at the scan position its row admits (R66). -/
theorem decodeByte_of_encode {st : ScanState} {len : Nat} {b : Byte} (hlegal : cfg.legal)
    (hwf : i.wellFormed cfg = true) (hadm : i.admits st len = true) (henc : encode cfg i = .byte b) :
    decodeByte cfg st len b = i := by
  cases i with
  | aSync0 =>
    obtain ⟨rfl, -⟩ := of_decide_eq_true hadm
    cases henc
    exact decodeByte_idle_marker0 cfg len
  | aDrop v =>
    obtain ⟨rfl, -⟩ := of_decide_eq_true hadm
    cases henc
    exact decodeByte_idle_other cfg len (of_decide_eq_true hwf)
  | aSync1 =>
    obtain ⟨rfl, -⟩ := of_decide_eq_true hadm
    cases henc
    exact decodeByte_matched_marker1 cfg len
  | aResync =>
    obtain ⟨rfl, -⟩ := of_decide_eq_true hadm
    cases henc
    exact decodeByte_matched_marker0 cfg len hlegal.1 hwf
  | aMiss v =>
    obtain ⟨rfl, -⟩ := of_decide_eq_true hadm
    cases henc
    obtain ⟨h1, h0⟩ := of_decide_eq_true hwf
    exact decodeByte_matched_other cfg len h1 h0
  | aAppend v =>
    obtain ⟨rfl, -, hlen⟩ := of_decide_eq_true hadm
    cases henc
    exact decodeByte_collecting_append cfg b (by omega)
  | aLast v =>
    obtain ⟨rfl, rfl⟩ := of_decide_eq_true hadm
    cases henc
    exact decodeByte_collecting_last cfg b (by decide)
  | _ => cases henc

/-- What a byte selects is well formed and has that byte (R66). -/
theorem decodeByte_sound (cfg : Config) (st : ScanState) (len : Nat) (b : Byte) :
    (decodeByte cfg st len b).wellFormed cfg = true ∧ encode cfg (decodeByte cfg st len b) = .byte b := by
  cases st with
  | idle =>
    by_cases h : b = cfg.marker0
    · subst h
      rw [decodeByte_idle_marker0]
      exact ⟨rfl, rfl⟩
    · rw [decodeByte_idle_other cfg len h]
      exact ⟨decide_eq_true h, rfl⟩
  | matched =>
    by_cases h1 : b = cfg.marker1
    · subst h1
      rw [decodeByte_matched_marker1]
      exact ⟨rfl, rfl⟩
    · by_cases h0 : b ≠ cfg.marker0 ∨ cfg.reeval = false
      · rw [decodeByte_matched_other cfg len h1 h0]
        exact ⟨decide_eq_true ⟨h1, h0⟩, rfl⟩
      · simp only [not_or, not_not, Bool.not_eq_false] at h0
        obtain ⟨rfl, hr⟩ := h0
        rw [decodeByte_matched_marker0 cfg len h1 hr]
        exact ⟨hr, rfl⟩
  | collecting =>
    by_cases h : len < 14
    · rw [decodeByte_collecting_append cfg b h]
      exact ⟨rfl, rfl⟩
    · rw [decodeByte_collecting_last cfg b h]
      exact ⟨rfl, rfl⟩

/-- A frame's class is the row that is well formed on it (R68). -/
theorem decodeFrame_eq_iff (f : Frame) :
    decodeFrame cfg f = i ↔ i.wellFormed cfg = true ∧ encode cfg i = .frame (frameBits f) := by
  constructor
  · rintro rfl
    cases hv : validate cfg f <;> simp only [decodeFrame, hv] <;> exact ⟨decide_eq_true hv, rfl⟩
  · rintro ⟨hwf, henc⟩
    have hframe {g : Frame} (h : Code.frame (frameBits g) = .frame (frameBits f)) : g = f := by
      rw [← frameOfBits_frameBits g, Code.frame.inj h, frameOfBits_frameBits]
    cases i with
    | fStruct g | fCksum g | fValid g =>
      obtain rfl := hframe henc
      simp [decodeFrame, of_decide_eq_true hwf]
    | _ => cases henc

/-- The emission rules a sample selects are those that are well formed on it (R68, R134 to R138). -/
theorem mem_decodeSample_iff (smp : Sample) :
    i ∈ decodeSample cfg smp ↔ i.wellFormed cfg = true ∧ encode cfg i = .sample (sampleBits smp) := by
  constructor
  · intro h
    simp only [decodeSample, List.mem_append, List.mem_ite_nil_right, List.mem_singleton] at h
    rcases h with (((⟨hc, rfl⟩ | ⟨hc, rfl⟩) | ⟨hc, rfl⟩) | ⟨hc, rfl⟩) | ⟨hc, rfl⟩ <;> exact ⟨decide_eq_true hc, rfl⟩
  · rintro ⟨hwf, henc⟩
    have hsample {s : Sample} (h : Code.sample (sampleBits s) = .sample (sampleBits smp)) : s = smp := by
      rw [← sampleOfBits_sampleBits s, Code.sample.inj h, sampleOfBits_sampleBits]
    cases i with
    | mFwd s | mBwd s | mRight s | mLeft s | mStop s =>
      obtain rfl := hsample henc
      simp [decodeSample, of_decide_eq_true hwf]
    | _ => cases henc

/-- A command word is packed of the values its fields have (R69). -/
theorem packCommand_eq_of_fields {w : BitVec 35} {t : BitVec 3} {l r : BitVec 16} (ht : w.extractLsb' 32 3 = t)
    (hl : w.extractLsb' 16 16 = l) (hr : w.extractLsb' 0 16 = r) : packCommand t l r = w := by
  subst ht hl hr
  exact packCommand_fields w

/-- The command row of a word is the one with that word (R69, R70, R73). -/
theorem decodeCommandWord_eq_ok_iff {w : BitVec 35} :
    decodeCommandWord cfg w = .ok i ↔ i.wellFormed cfg = true ∧ encode cfg i = .cmd w := by
  constructor
  · intro h
    simp only [decodeCommandWord] at h
    split_ifs at h with ht hstop hres hduty h1 h2 h3 <;> cases h
    · exact ⟨rfl, congrArg Code.cmd (packCommand_eq_of_fields ht hstop.1 hstop.2)⟩
    · exact ⟨rfl, congrArg Code.cmd (packCommand_eq_of_fields h1 hduty.1 hduty.2)⟩
    · exact ⟨rfl, congrArg Code.cmd (packCommand_eq_of_fields h2 hduty.1 hduty.2)⟩
    · exact ⟨rfl, congrArg Code.cmd (packCommand_eq_of_fields h3 hduty.1 hduty.2)⟩
    · have h4 : w.extractLsb' 32 3 = 4#3 := by bv_omega
      exact ⟨rfl, congrArg Code.cmd (packCommand_eq_of_fields h4 hduty.1 hduty.2)⟩
  · rintro ⟨-, henc⟩
    cases i with
    | cmdStop | cmdForward | cmdBackward | cmdLeft | cmdRight =>
      cases henc
      simp [decodeCommandWord, encodeCommand, tagCode, forwardCmd, backwardCmd, leftCmd, rightCmd]
    | _ => cases henc

/-- An event word is joined of the values its fields have (R71). -/
theorem eventWord_eq_of_fields {w : BitVec 7} {c : BitVec 4} {a : BitVec 3} (hc : w.extractLsb' 3 4 = c)
    (ha : w.extractLsb' 0 3 = a) : c ++ a = w := by
  subst hc ha
  exact (BitVec.extractLsb'_append_extractLsb'_eq_extractLsb' rfl).trans BitVec.extractLsb'_eq_self

/-- The event row of a word is the one with that word, where the diagnostic sink is present (R71, R73, R176). -/
theorem decodeEventWord_eq_ok_iff {w : BitVec 7} :
    decodeEventWord cfg w = .ok i ↔ i.wellFormed cfg = true ∧ encode cfg i = .diag w := by
  constructor
  · intro h
    simp only [decodeEventWord] at h
    -- In each of the seven branches that answer a row, `hc` is its code and `ha` its argument.
    split_ifs at h with hd hc ha hc ha hc ha ha ha ha ha <;> cases h <;>
      exact ⟨eq_true_of_ne_false hd, congrArg Code.diag (eventWord_eq_of_fields hc ha)⟩
  · rintro ⟨hwf, henc⟩
    cases i with
    | eStruct | eCksum | eCmdStop | eCmdForward | eCmdBackward | eCmdLeft | eCmdRight =>
      cases henc
      simp [decodeEventWord, encodeEvent, tagCode, show cfg.hasDiag = true from hwf]
    | _ => cases henc

/-- The word of an operation is a word of its row's format (R60). -/
theorem encode_format (cfg : Config) (i : Instr) : (encode cfg i).format = i.format := by
  cases i <;> rfl

/-- Settles O14: by the format of the operation's word. -/
theorem encodedOperationsDecodeBack : Obligations.EncodedOperationsDecodeBack := by
  intro cfg i st len hlegal hwf hadm
  cases henc : encode cfg i with
  | byte b =>
    have hrow := decodeByte_of_encode hlegal hwf hadm henc
    exact ⟨[i], by simp [decode, hrow], by simp⟩
  | frame v =>
    have hrow := decodeFrame_eq_iff (frameOfBits v) |>.mpr ⟨hwf, by simpa using henc⟩
    exact ⟨[i], by simp [decode, hrow], by simp⟩
  | sample v =>
    have hmem := mem_decodeSample_iff (sampleOfBits v) |>.mpr ⟨hwf, by simpa using henc⟩
    have hformat : i.format = .sample := (encode_format cfg i).symm.trans (congrArg Code.format henc)
    exact ⟨_, rfl, hmem, fun hne => absurd hformat hne⟩
  | cmd w =>
    have hrow := decodeCommandWord_eq_ok_iff.mpr ⟨hwf, henc⟩
    exact ⟨[i], by simp [decode, hrow, Except.map], by simp⟩
  | diag w =>
    have hrow := decodeEventWord_eq_ok_iff.mpr ⟨hwf, henc⟩
    exact ⟨[i], by simp [decode, hrow, Except.map], by simp⟩

/-- Where a decoder of one row answers a list, the list is that row's operation alone. -/
theorem eq_ok_of_map_singleton {x : Except DecodeError Instr} {l : List Instr} (h : x.map (fun j => [j]) = .ok l)
    (hi : i ∈ l) : x = .ok i := by
  cases x with
  | error e => cases h
  | ok j =>
    cases h
    rw [List.mem_singleton.mp hi]

/-- Settles O15: by the format of the word. -/
theorem decodedOperationsEncodeBack : Obligations.DecodedOperationsEncodeBack := by
  intro cfg c st len l i _ hdec hi
  cases c with
  | byte b =>
    cases hdec
    rw [List.mem_singleton.mp hi]
    exact decodeByte_sound cfg st len b
  | frame v =>
    cases hdec
    simpa using (decodeFrame_eq_iff (frameOfBits v)).mp (List.mem_singleton.mp hi).symm
  | sample v =>
    cases hdec
    simpa using (mem_decodeSample_iff (sampleOfBits v)).mp hi
  | cmd w => exact decodeCommandWord_eq_ok_iff.mp (eq_ok_of_map_singleton hdec hi)
  | diag w => exact decodeEventWord_eq_ok_iff.mp (eq_ok_of_map_singleton hdec hi)

end

end Sys2Proof
end

section
/-! Words and frames written out from the encoding tables (R62, R66 to R73, R85). -/

namespace Sys2Proof.Machine

/-- Settles O13: each word is closed, and its decoding computes. -/
theorem sampleWordsDecodeToTheirRows : Obligations.SampleWordsDecodeToTheirRows :=
  ⟨rfl, rfl, rfl, rfl, rfl, rfl, rfl, rfl, rfl, rfl⟩

/-- A frame is of class ChecksumError exactly when its marker is good and its checksum is not (R110, R113). -/
theorem validate_eq_checksumError_iff (cfg : Config) (f : Frame) :
    validate cfg f = .checksumError ↔ markerOk cfg f ∧ ¬ checksumOk f := by
  unfold validate
  split_ifs with hmark hck
  · exact iff_of_false nofun fun ⟨hm, _⟩ => hmark.elim (· hm.1) (· hm.2)
  · exact iff_of_true rfl ⟨by simpa using hmark, hck⟩
  · exact iff_of_false nofun fun ⟨_, hc⟩ => hck hc

/-- Settles O39: the constructed frame has the marker, its fourteen covered bytes are the payload and its fifteenth is
the byte given. -/
theorem badFrameIsAChecksumErrorExactlyWhen : Obligations.BadFrameIsAChecksumErrorExactlyWhen := by
  intro cfg smp ck
  have hmark : markerOk cfg (frameWith cfg smp ck) := ⟨rfl, rfl⟩
  have hck : checksumOk (frameWith cfg smp ck) ↔ ck = checksum (framePayload cfg smp) := Iff.rfl
  rw [validate_eq_checksumError_iff, hck]
  exact and_iff_right hmark

end Sys2Proof.Machine
end

section
/-! The bytes the buffer holds under the invariants of R24. -/

namespace Sys2Proof.Machine

/-- The bytes of consecutive cells. -/
@[simp] theorem map_snd_ofBytes (k : Nat) (l : List Byte) : (Memory.ofBytes k l).map Prod.snd = l := by
  induction l generalizing k with
  | nil => rfl
  | cons b l ih => simp [Memory.ofBytes, ih]

/-- Under the invariants the buffer holds `len` bytes (R23). -/
theorem length_bufBytes {s : State} (h : s.Inv) : s.bufBytes.length = s.len := by
  obtain ⟨-, hlen⟩ := inv_buf h
  exact hlen

/-- Under the invariants an offset reads as the byte received at it (R12, R23). -/
theorem read_eq_getElem?_bufBytes {s : State} (h : s.Inv) (i : Nat) : s.buf.read i = s.bufBytes[i]? := by
  obtain ⟨hbuf, -⟩ := inv_buf h
  have hread := read_ofBytes 0 s.bufBytes i
  rwa [Nat.zero_add, State.bufBytes, ← hbuf] at hread

/-- Under the invariants a write at offset `len` appends to the bytes received. -/
theorem bytes_write_len {s : State} (h : s.Inv) (v : Byte) :
    (s.buf.write s.len v).map Prod.snd = s.bufBytes ++ [v] := by
  obtain ⟨hbuf, hlen⟩ := inv_buf h
  have hwrite := write_ofBytes_end 0 s.bufBytes v
  rw [Nat.zero_add, length_bufBytes h, State.bufBytes, ← hbuf] at hwrite
  rw [hwrite, map_snd_ofBytes, State.bufBytes]

/-- In Idle the buffer holds nothing. -/
theorem buf_idle {s : State} (h : s.Inv) (hst : s.st = .idle) : s.buf = [] := by
  obtain ⟨hoff, hidle, -⟩ := h
  simpa [hidle hst] using hoff

/-- In Matched the buffer holds `MARKER0` alone. -/
theorem buf_matched {s : State} (h : s.Inv) (hst : s.st = .matched) : s.buf = [(0, s.cfg.marker0)] := by
  have ⟨_, _, hmatched, _⟩ := h
  obtain ⟨hlen, hmark⟩ := hmatched hst
  obtain ⟨v, hv⟩ := List.length_eq_one_iff.mp ((length_bufBytes h).trans hlen)
  have hv0 : v = s.cfg.marker0 := by simpa [read_eq_getElem?_bufBytes h, hv] using hmark
  obtain ⟨hbuf, -⟩ := inv_buf h
  rw [hbuf, ← State.bufBytes, hv, hv0]
  rfl

theorem bufBytes_idle {s : State} (h : s.Inv) (hst : s.st = .idle) : s.bufBytes = [] := by
  rw [State.bufBytes, buf_idle h hst, List.map_nil]

theorem bufBytes_matched {s : State} (h : s.Inv) (hst : s.st = .matched) : s.bufBytes = [s.cfg.marker0] := by
  rw [State.bufBytes, buf_matched h hst, List.map_singleton]

end Sys2Proof.Machine
end

section
/-! The byte-step operations one by one (R91 to R96): the whole effect of each, and the byte that selects it. -/

namespace Sys2Proof.Machine

/-- Settles O16: A.DROP answers its own state. -/
theorem dropLeavesNoTrace : Obligations.DropLeavesNoTrace := fun s _ =>
  ⟨rfl, fun hst hb => hst ▸ decodeByte_idle_other s.cfg s.len hb⟩

/-- Settles O17: A.SYNC0 is a write at offset 0 and a new scan position. -/
theorem firstMarkerByteEntersMatched : Obligations.FirstMarkerByteEntersMatched := fun s =>
  ⟨⟨_, execASync0_eq s, rfl, rfl, read_write_same _ _ _, fun _ ha => read_write_other _ _ ha,
      ⟨rfl, rfl, rfl⟩, ⟨rfl, rfl, rfl⟩⟩,
    fun hst => hst ▸ decodeByte_idle_marker0 s.cfg s.len⟩

/-- A.SYNC1 in Matched completes the marker pair in the buffer (R93). -/
theorem bytes_write_marker1 {s : State} (h : s.Inv) (hst : s.st = .matched) :
    (s.buf.write 1 s.cfg.marker1).map Prod.snd = [s.cfg.marker0, s.cfg.marker1] := by
  have ⟨_, _, hmatched, _⟩ := h
  obtain ⟨hlen, -⟩ := hmatched hst
  have hbytes := bytes_write_len h s.cfg.marker1
  rwa [hlen, bufBytes_matched h hst] at hbytes

/-- Settles O18: A.SYNC1 is a write at offset 1 and a new scan position. -/
theorem secondMarkerByteEntersCollecting : Obligations.SecondMarkerByteEntersCollecting := fun s =>
  ⟨⟨_, execASync1_eq s, rfl, rfl, read_write_same _ _ _, fun _ ha => read_write_other _ _ ha,
      ⟨rfl, rfl, rfl⟩, ⟨rfl, rfl, rfl⟩, bytes_write_marker1⟩,
    fun hst => hst ▸ decodeByte_matched_marker1 s.cfg s.len⟩

/-- The state in (Matched, 1) with `MARKER0` alone in the buffer (R92, R94). -/
def State.synced (s : State) : State :=
  { s with st := .matched, len := 1, buf := [(0, s.cfg.marker0)] }

/-- In Matched the invariants leave one scan state. -/
theorem synced_eq_self {s : State} (h : s.Inv) (hst : s.st = .matched) : s.synced = s := by
  have ⟨_, _, hmatched, _⟩ := h
  obtain ⟨hlen, -⟩ := hmatched hst
  rw [State.synced, ← buf_matched h hst, ← hst, ← hlen]

/-- Settles O19: A.RESYNC answers `State.synced`, which in Matched is the state itself. -/
theorem repeatedMarkerByteStaysMatched : Obligations.RepeatedMarkerByteStaysMatched := by
  intro s
  have hexec : exec .aResync s = .next s.synced := execAResync_eq s
  refine ⟨s.synced, hexec, rfl, rfl, rfl, fun a ha => ?_, ⟨rfl, rfl, rfl⟩, ⟨rfl, rfl, rfl⟩,
    fun hinv hst => ?_⟩
  · simp [State.synced, Memory.read, ha.symm]
  · rw [synced_eq_self hinv hst]
    exact ⟨rfl, rfl, fun _ => rfl⟩

/-- Settles O20: A.MISS is the buffer reset. -/
theorem markerMissResetsTheBuffer : Obligations.MarkerMissResetsTheBuffer := fun s _ =>
  ⟨⟨s.bufferReset, rfl, ⟨rfl, rfl, read_nil⟩, ⟨rfl, rfl, rfl⟩, ⟨rfl, rfl, rfl⟩⟩,
    fun hst h1 h0 => hst ▸ decodeByte_matched_other s.cfg s.len h1 h0⟩

/-- Settles O21: A.APPEND is a write at offset `len`, which exists below 14, and `len` raised. -/
theorem appendStoresTheByteAtLen : Obligations.AppendStoresTheByteAtLen := by
  intro s b hst hlen
  have hoff : s.len < frameLen := by unfold frameLen; omega
  exact ⟨hst ▸ decodeByte_collecting_append s.cfg b hlen, _, execAAppend_eq s b hoff, rfl, rfl,
    read_write_same _ _ _, fun _ ha => read_write_other _ _ ha, ⟨rfl, rfl, rfl⟩, ⟨rfl, rfl, rfl⟩⟩

end Sys2Proof.Machine
end

section
/-! The frame a byte hands on (R97): its bytes, and the byte-step that hands it on. -/

namespace Sys2Proof.Machine

/-- `frame[i]` as an entry of the frame's bytes (R11). -/
theorem getElem?_bytes (f : Frame) (i : Fin 15) : f.bytes[i.val]? = some (f.byte i) :=
  List.getElem?_eq_getElem _

/-- A frame is determined by its byte sequence. -/
theorem frame_eq_of_bytes {f g : Frame} (h : f.bytes = g.bytes) : f = g := by
  cases f
  cases g
  cases h
  rfl

/-- Outside Collecting no frame is handed on. -/
theorem frameHandedOn_of_ne_collecting {s : State} (b : Byte) (hst : s.st ≠ .collecting) : frameHandedOn s b = none :=
  frameHandedOn_eq_none fun h => absurd h hst

/-- A byte that hands a frame on is read in Collecting after fourteen bytes (R97). -/
theorem scan_of_frameHandedOn {s : State} {b : Byte} {f : Frame} (hf : frameHandedOn s b = some f) :
    s.st = .collecting ∧ ¬ s.len < 14 := by
  by_contra hscan
  have hnone : frameHandedOn s b = none := frameHandedOn_eq_none (by simpa using hscan)
  simp [hnone] at hf

/-- The byte-step that hands a frame on is PROCESS on it after the buffer reset (R97). -/
theorem byteStep_of_frameHandedOn {s : State} {b : Byte} {f : Frame} (hf : frameHandedOn s b = some f) :
    byteStep b s = .next (s.bufferReset.processFrame f) := by
  obtain ⟨hst, hge⟩ := scan_of_frameHandedOn hf
  rw [frameHandedOn_last b hst hge] at hf
  rw [byteStep, hst, decodeByte_collecting_last s.cfg b hge, exec, execALast_eq, hf]

/-- The row a frame selects is PROCESS on it (R68, R151). -/
theorem exec_decodeFrame (f : Frame) (s : State) : exec (decodeFrame s.cfg f) s = .next (s.processFrame f) := by
  unfold decodeFrame State.processFrame
  cases validate s.cfg f <;> rfl

/-- Settles O23: both are PROCESS on the frame after the buffer reset. -/
theorem lastByteRunsTheFramesRow : Obligations.LastByteRunsTheFramesRow := by
  intro s b f hf
  have hrow := exec_decodeFrame f s.bufferReset
  rw [bufferReset_cfg] at hrow
  rw [byteStep_of_frameHandedOn hf, hrow]

/-- After the buffer reset PROCESS leaves (Idle, 0) and an empty buffer, whatever it finds (R97). -/
theorem scanEmpty_processFrame (f : Frame) (s : State) : ScanEmpty (s.bufferReset.processFrame f) := by
  obtain ⟨hst, hlen, hbuf⟩ := processFrame_scan f s.bufferReset
  exact ⟨hst, hlen, by simp [hbuf]⟩

/-- A byte-step that hands a frame on leaves (Idle, 0) (R97). -/
theorem scanEmpty_of_frameHandedOn {s t : State} {b : Byte} {f : Frame} (hf : frameHandedOn s b = some f)
    (hstep : byteStep b s = .next t) : ScanEmpty t := by
  rw [byteStep_of_frameHandedOn hf] at hstep
  cases hstep
  exact scanEmpty_processFrame f s

/-- Under the invariants the frame handed on is the bytes received and the byte that completes it (R97). -/
theorem frameHandedOn_eq_some_iff {s : State} {b : Byte} {f : Frame} (h : s.Inv) :
    frameHandedOn s b = some f ↔ s.st = .collecting ∧ f.bytes = s.bufBytes ++ [b] := by
  have ⟨_, _, _, hcoll, _⟩ := h
  constructor
  · intro hf
    obtain ⟨hst, hge⟩ := scan_of_frameHandedOn hf
    obtain ⟨-, hle, -⟩ := hcoll hst
    obtain ⟨g, hbytes, hg⟩ := bufferFrame?_of_inv h (by omega) b
    rw [frameHandedOn_last b hst hge, hg] at hf
    cases hf
    exact ⟨hst, hbytes⟩
  · rintro ⟨hst, hbytes⟩
    have hlen : s.len = 14 := by
      have hlength := congrArg List.length hbytes
      rw [f.length_eq, List.length_append, length_bufBytes h] at hlength
      simpa using hlength.symm
    obtain ⟨g, hbytes', hg⟩ := bufferFrame?_of_inv h hlen b
    rw [frameHandedOn_last b hst (by omega), hg, frame_eq_of_bytes (hbytes'.trans hbytes.symm)]

/-- The first fourteen bytes of a frame made of the bytes received and one more are those the buffer reads. -/
theorem read_of_bytes_eq {s : State} {b : Byte} {f : Frame} (h : s.Inv) (hbytes : f.bytes = s.bufBytes ++ [b])
    {i : Fin 15} (hi : i.val < 14) : s.buf.read i = some (f.byte i) := by
  have hlength : s.bufBytes.length = 14 := by
    simpa [f.length_eq] using (congrArg List.length hbytes).symm
  rw [← getElem?_bytes, hbytes, List.getElem?_append_left (by omega), read_eq_getElem?_bufBytes h]

/-- The last byte of a frame made of fourteen bytes and one more is that one. -/
theorem byte_last_of_bytes_eq {l : List Byte} {b : Byte} {f : Frame} (hbytes : f.bytes = l ++ [b]) :
    f.byte 14 = b := by
  have hlength : l.length = 14 := by
    simpa [f.length_eq] using (congrArg List.length hbytes).symm
  have hlast : f.bytes[14]? = some b := by
    rw [hbytes, ← hlength, List.getElem?_concat_length]
  exact Option.some.inj ((getElem?_bytes f 14).symm.trans hlast)

/-- Settles O22: at (Collecting, 14) the frame is there, and A.LAST is PROCESS on it after the buffer reset. -/
theorem lastByteHandsTheFrameOn : Obligations.LastByteHandsTheFrameOn := by
  intro s b h hst hlen
  have ⟨_, _, _, _, hpend⟩ := h
  obtain ⟨f, hbytes, hf⟩ := bufferFrame?_of_inv h hlen b
  have hexec : exec (.aLast b) s = .next (s.bufferReset.processFrame f) := by rw [exec, execALast_eq, hf]
  refine ⟨f, _, fun i hi => read_of_bytes_eq h hbytes hi, byte_last_of_bytes_eq hbytes, hexec,
    scanEmpty_processFrame f s, ?_⟩
  simp [processFrame_eq f s.bufferReset hpend, SameInputs, hpend]

/-- Under the invariants a frame handed on has the marker (R101). -/
theorem markerOk_of_frameHandedOn {s : State} {b : Byte} {f : Frame} (h : s.Inv)
    (hf : frameHandedOn s b = some f) : markerOk s.cfg f := by
  have ⟨_, _, _, hcoll, _⟩ := h
  obtain ⟨hst, hbytes⟩ := (frameHandedOn_eq_some_iff h).mp hf
  obtain ⟨-, -, hmark0, hmark1⟩ := hcoll hst
  have hread0 := read_of_bytes_eq h hbytes (i := 0) (by decide)
  have hread1 := read_of_bytes_eq h hbytes (i := 1) (by decide)
  exact ⟨Option.some.inj (hread0.symm.trans hmark0), Option.some.inj (hread1.symm.trans hmark1)⟩

/-- A frame with the marker is not a StructuralError (R111). -/
theorem validate_ne_structuralError {cfg : Config} {f : Frame} (h : markerOk cfg f) :
    validate cfg f ≠ .structuralError := by
  obtain ⟨h0, h1⟩ := h
  unfold validate
  rw [if_neg (by simp [h0, h1])]
  split <;> simp

/-- Under the invariants what the buffer holds after a byte that hands no frame on is the end of the stream so far: an
operation appends the byte, restarts from it or discards all (R101). -/
theorem bufBytes_suffix {s t : State} {b : Byte} (h : s.Inv) (hnone : frameHandedOn s b = none)
    (hstep : byteStep b s = .next t) : t.bufBytes <:+ s.bufBytes ++ [b] := by
  have ⟨_, hidle, hmatched, _⟩ := h
  obtain ⟨hst, rfl, rfl⟩ | ⟨hst, -, rfl⟩ | ⟨hst, rfl, rfl⟩ | ⟨-, -, -, rfl, rfl⟩ | ⟨-, -, -, rfl⟩ |
    ⟨-, -, rfl⟩ | ⟨hst, hge, f, hf, -⟩ := byteStep_cases hstep
  -- A.SYNC0
  · have hbytes := bytes_write_len h s.cfg.marker0
    rw [hidle hst] at hbytes
    rw [← hbytes]
    exact List.suffix_rfl
  -- A.DROP
  · rw [bufBytes_idle h hst]
    exact List.nil_suffix
  -- A.SYNC1
  · obtain ⟨hlen, -⟩ := hmatched hst
    have hbytes := bytes_write_len h s.cfg.marker1
    rw [hlen] at hbytes
    rw [← hbytes]
    exact List.suffix_rfl
  -- A.RESYNC
  · exact List.suffix_append _ _
  -- A.MISS
  · exact List.nil_suffix
  -- A.APPEND
  · rw [← bytes_write_len h b]
    exact List.suffix_rfl
  -- A.LAST hands a frame on
  · rw [frameHandedOn_last b hst hge, hf] at hnone
    cases hnone

end Sys2Proof.Machine
end

section
/-! Runs over byte sequences, with the state they leave and the frames they hand on (R98, R157). -/

namespace Sys2Proof.Machine

/-- A run over `bs` from `s` hands on the frames `fs` and leaves `t`. -/
structure RunsTo (bs : List Byte) (s : State) (fs : List Frame) (t : State) : Prop where
  run : runBytes bs s = .next t
  frames : framesHandedOn bs s = fs

namespace RunsTo

variable {as bs : List Byte} {b : Byte} {s t u : State} {fs gs : List Frame}

theorem nil (s : State) : RunsTo [] s [] s := ⟨rfl, rfl⟩

/-- A byte-step, then a run. -/
theorem cons (hstep : byteStep b s = .next t) (h : RunsTo bs t fs u) :
    RunsTo (b :: bs) s ((frameHandedOn s b).toList ++ fs) u :=
  ⟨by rw [runBytes, hstep, andThen_next, h.run], by simp only [framesHandedOn, hstep, h.frames]⟩

/-- A byte-step that hands no frame on, then a run. -/
theorem cons_of_none (hstep : byteStep b s = .next t) (hnone : frameHandedOn s b = none) (h : RunsTo bs t fs u) :
    RunsTo (b :: bs) s fs u := by
  simpa [hnone] using cons hstep h

/-- A run over a first byte and others is its byte-step and then a run over the others. -/
theorem cons_cases (h : RunsTo (b :: bs) s fs u) :
    ∃ t gs, byteStep b s = .next t ∧ RunsTo bs t gs u ∧ fs = (frameHandedOn s b).toList ++ gs := by
  obtain ⟨t, hstep, hrun⟩ := andThen_eq_next h.run
  exact ⟨t, framesHandedOn bs t, hstep, ⟨hrun, rfl⟩, h.frames.symm.trans (cons hstep ⟨hrun, rfl⟩).frames⟩

/-- The frames of a run over two sequences are those of the first run and then those of the second. -/
theorem append (h : RunsTo as s fs t) (h' : RunsTo bs t gs u) : RunsTo (as ++ bs) s (fs ++ gs) u := by
  induction as generalizing s fs with
  | nil =>
    obtain ⟨hrun, rfl⟩ := h
    cases hrun
    exact h'
  | cons a as ih =>
    obtain ⟨v, fs', hstep, hrest, rfl⟩ := h.cons_cases
    rw [List.append_assoc]
    exact cons hstep (ih hrest)

/-- A run changes nothing the environment gives (R29, R46). -/
theorem sameInputs (h : RunsTo bs s fs t) : SameInputs s t := by
  induction bs generalizing s fs with
  | nil =>
    cases h.run
    exact ⟨rfl, rfl, rfl⟩
  | cons b bs ih =>
    obtain ⟨v, fs', hstep, hrest, -⟩ := h.cons_cases
    obtain ⟨hcfg, hrst, hinput⟩ := byteStep_sameInputs hstep
    obtain ⟨hcfg', hrst', hinput'⟩ := ih hrest
    exact ⟨hcfg'.trans hcfg, hrst'.trans hrst, hinput'.trans hinput⟩

/-- A run keeps the invariants (R24). -/
theorem inv (h : RunsTo bs s fs t) (hinv : s.Inv) : t.Inv := by
  induction bs generalizing s fs with
  | nil =>
    cases h.run
    exact hinv
  | cons b bs ih =>
    obtain ⟨v, fs', hstep, hrest, -⟩ := h.cons_cases
    exact ih hrest (byteStep_keeps_inv hinv hstep)

/-- A run puts out what the frames it hands on cause, in order (R184). -/
theorem traces (h : RunsTo bs s fs t) :
    t.cmds = s.cmds ++ fs.flatMap (frameCommands s.cfg) ∧ t.diags = s.diags ++ fs.flatMap (frameEvents s.cfg) := by
  induction bs generalizing s fs with
  | nil =>
    obtain ⟨hrun, rfl⟩ := h
    cases hrun
    simp [framesHandedOn]
  | cons b bs ih =>
    obtain ⟨v, fs', hstep, hrest, rfl⟩ := h.cons_cases
    obtain ⟨hcfg, -, -⟩ := byteStep_sameInputs hstep
    obtain ⟨hcmds, hdiags⟩ := ih hrest
    rw [hcfg] at hcmds hdiags
    obtain ⟨hnone, hc, hd⟩ | ⟨f, hf, hc, hd⟩ := byteStep_traces hstep
    · simp [hcmds, hdiags, hnone, hc, hd]
    · simp [hcmds, hdiags, hf, hc, hd]

/-- A run that hands no frame on puts nothing out. -/
theorem sameOutputs (h : RunsTo bs s [] t) (hinv : s.Inv) : SameOutputs s t := by
  have ⟨_, _, _, _, hpend⟩ := hinv
  have ⟨_, _, _, _, hpend'⟩ := h.inv hinv
  obtain ⟨hcmds, hdiags⟩ := h.traces
  exact ⟨hpend'.trans hpend.symm, by simpa using hcmds, by simpa using hdiags⟩

/-- From the invariants there is a run over every byte sequence (R156). -/
theorem exists_of_inv (bs : List Byte) (hinv : s.Inv) : ∃ t, RunsTo bs s (framesHandedOn bs s) t := by
  induction bs generalizing s with
  | nil => exact ⟨s, nil s⟩
  | cons b bs ih =>
    obtain ⟨v, hstep⟩ := byteStep_total hinv b
    obtain ⟨t, ht⟩ := ih (byteStep_keeps_inv hinv hstep)
    have hrun := cons hstep ht
    exact ⟨t, hrun.run, rfl⟩

end RunsTo

/-- With reset released, nothing pending and no byte to read a step waits (R106). -/
theorem step_eq_self {s : State} (hr : s.rst = false) (hp : s.pend = []) (hi : s.input = []) :
    step s = .next s := by
  simp [step, pipelineStep, hr, hp, hi]

/-- Settles O5, by induction on the number of steps, each of which waits. -/
theorem waitingForAByteChangesNothing : Obligations.WaitingForAByteChangesNothing := by
  intro s k hr hp hi
  induction k with
  | zero => rfl
  | succ k ih => rw [core_run_succ k (step_eq_self hr hp hi), ih]

/-- In Collecting below fourteen bytes any byte is received (R96). -/
theorem byteStep_collecting (b : Byte) {s : State} (h : s.Inv) (hst : s.st = .collecting) (hlt : s.len < 14) :
    ∃ t, byteStep b s = .next t ∧ t.st = .collecting ∧ t.len = s.len + 1 ∧ t.bufBytes = s.bufBytes ++ [b] := by
  have happend := execAAppend_eq s b (by unfold frameLen; omega)
  refine ⟨{ s with st := .collecting, len := s.len + 1, buf := s.buf.write s.len b }, ?_, rfl, rfl,
    bytes_write_len h b⟩
  rw [byteStep, hst, decodeByte_collecting_append s.cfg b hlt, exec, happend]

/-- In Collecting bytes that fit are received as they come, and no frame is handed on (R67, R96). -/
theorem runsTo_collecting (l : List Byte) {s : State} (h : s.Inv) (hst : s.st = .collecting)
    (hfit : s.len + l.length ≤ 14) :
    ∃ t, RunsTo l s [] t ∧ t.st = .collecting ∧ t.bufBytes = s.bufBytes ++ l := by
  induction l generalizing s with
  | nil => exact ⟨s, RunsTo.nil s, hst, (List.append_nil _).symm⟩
  | cons b l ih =>
    rw [List.length_cons] at hfit
    have hlt : s.len < 14 := by omega
    obtain ⟨v, hstep, hst', hlen, hbytes⟩ := byteStep_collecting b h hst hlt
    obtain ⟨t, hrun, ht, htb⟩ := ih (byteStep_keeps_inv h hstep) hst' (by omega)
    exact ⟨t, hrun.cons_of_none hstep (frameHandedOn_eq_none fun _ => hlt), ht, by simp [htb, hbytes]⟩

/-- Settles O25: `len` is the number of bytes received. -/
theorem collectingStoresBytesUninspected : Obligations.CollectingStoresBytesUninspected := by
  intro l s h hst hfit
  obtain ⟨t, hrun, ht, hbytes⟩ := runsTo_collecting l h hst hfit
  have hinv := hrun.inv h
  have hlen : t.len = s.len + l.length := by
    rw [← length_bufBytes hinv, hbytes, List.length_append, length_bufBytes h]
  exact ⟨t, hrun.run, hinv, ht, hlen, hbytes, hrun.sameInputs, hrun.sameOutputs h⟩

/-- Settles O51, by induction on the bytes at hand: AssembleNext takes a byte that hands no frame on and goes on, or
stops at the byte that hands one on. -/
theorem assembleNextTakesUpToOneFrame : Obligations.AssembleNextTakesUpToOneFrame := by
  intro bs rest s t f h hnext
  induction bs generalizing s with
  | nil => cases hnext
  | cons b bs ih =>
    obtain ⟨v, hstep⟩ := byteStep_total h b
    have hinv : v.Inv := byteStep_keeps_inv h hstep
    cases hf : frameHandedOn s b with
    | none =>
      simp only [assembleNext, hstep, hf] at hnext
      obtain ⟨hempty, htinv, hframes, used, rfl, hrun⟩ := ih v hinv hnext
      have hcons := RunsTo.cons_of_none hstep hf ⟨hrun, rfl⟩
      refine ⟨hempty, htinv, ?_, b :: used, rfl, hcons.run⟩
      simp only [framesHandedOn, hstep, hf, hframes, Option.toList_none, List.nil_append]
    | some g =>
      simp only [assembleNext, hstep, hf] at hnext
      have hempty : ScanEmpty v := scanEmpty_of_frameHandedOn hf hstep
      have hrun : runBytes [b] s = .next v := (RunsTo.cons hstep (RunsTo.nil v)).run
      cases hnext
      refine ⟨hempty, hinv, ?_, [b], rfl, hrun⟩
      simp only [framesHandedOn, hstep, hf, Option.toList_some, List.singleton_append]

end Sys2Proof.Machine
end

section
/-! Runs of `MARKER0` in Matched, and what `REEVAL` decides (R94, R104). -/

namespace Sys2Proof.Machine

section
variable {s : State}

/-- `MARKER0` in Idle is A.SYNC0 (R92). -/
theorem byteStep_idle_marker0 (h : s.Inv) (hst : s.st = .idle) :
    byteStep s.cfg.marker0 s = .next s.synced := by
  rw [byteStep, hst, decodeByte_idle_marker0, exec, execASync0_eq, buf_idle h hst]
  rfl

/-- `MARKER0` in (Matched, 1) is A.RESYNC, which leaves the state as it is (R94). -/
theorem byteStep_synced_marker0 (hne : s.cfg.marker0 ≠ s.cfg.marker1) (hr : s.cfg.reeval = true) :
    byteStep s.cfg.marker0 s.synced = .next s.synced := by
  have hsel : byteStep s.cfg.marker0 s.synced = exec (decodeByte s.cfg .matched 1 s.cfg.marker0) s.synced := rfl
  rw [hsel, decodeByte_matched_marker0 s.cfg 1 hne hr, exec, execAResync_eq]
  rfl

/-- Without `REEVAL`, `MARKER0` in (Matched, 1) is A.MISS, which discards it (R95, R104). -/
theorem byteStep_synced_marker0_miss (hne : s.cfg.marker0 ≠ s.cfg.marker1) (hr : s.cfg.reeval = false) :
    byteStep s.cfg.marker0 s.synced = .next s.bufferReset := by
  have hsel : byteStep s.cfg.marker0 s.synced = exec (decodeByte s.cfg .matched 1 s.cfg.marker0) s.synced := rfl
  rw [hsel, decodeByte_matched_other s.cfg 1 hne (.inr hr)]
  rfl

/-- One `MARKER0` that the block accepts leaves (Matched, 1) with it alone in the buffer (R92, R94). -/
theorem runsTo_marker0 (h : s.Inv) (hst : s.st ≠ .collecting) (hne : s.cfg.marker0 ≠ s.cfg.marker1)
    (hr : s.cfg.reeval = true ∨ s.st = .idle) : RunsTo [s.cfg.marker0] s [] s.synced := by
  have hstep : byteStep s.cfg.marker0 s = .next s.synced := by
    cases hq : s.st with
    | idle => exact byteStep_idle_marker0 h hq
    | matched =>
      have hstep := byteStep_synced_marker0 hne (hr.resolve_right (by simp [hq]))
      rwa [synced_eq_self h hq] at hstep ⊢
    | collecting => exact absurd hq hst
  exact (RunsTo.nil _).cons_of_none hstep (frameHandedOn_of_ne_collecting _ hst)

/-- After `MARKER0`, `MARKER1` leaves Collecting with the marker pair in the buffer (R93). -/
theorem runsTo_synced_marker1 (s : State) :
    ∃ t, RunsTo [s.cfg.marker1] s.synced [] t ∧ t.st = .collecting ∧ t.len = 2 ∧
      t.bufBytes = [s.cfg.marker0, s.cfg.marker1] := by
  have hsel : byteStep s.cfg.marker1 s.synced = exec (decodeByte s.cfg .matched 1 s.cfg.marker1) s.synced := rfl
  rw [decodeByte_matched_marker1, exec, execASync1_eq] at hsel
  exact ⟨_, (RunsTo.nil _).cons_of_none hsel (frameHandedOn_of_ne_collecting _ nofun), rfl, rfl, rfl⟩

/-- With `REEVAL` any number of `MARKER0` bytes leaves (Matched, 1) as it is (R94). -/
theorem runsTo_synced_replicate (n : Nat) (hne : s.cfg.marker0 ≠ s.cfg.marker1) (hr : s.cfg.reeval = true) :
    RunsTo (List.replicate n s.cfg.marker0) s.synced [] s.synced := by
  induction n with
  | zero => exact RunsTo.nil _
  | succ n ih =>
    exact ih.cons_of_none (byteStep_synced_marker0 hne hr) (frameHandedOn_of_ne_collecting _ nofun)

/-- With `REEVAL` one or more `MARKER0` bytes from Idle leave (Matched, 1) (R94). -/
theorem runsTo_idle_replicate (n : Nat) (h : s.Inv) (hst : s.st = .idle) (hne : s.cfg.marker0 ≠ s.cfg.marker1)
    (hr : s.cfg.reeval = true) : RunsTo (List.replicate (n + 1) s.cfg.marker0) s [] s.synced :=
  (runsTo_synced_replicate n hne hr).cons_of_none (byteStep_idle_marker0 h hst)
    (frameHandedOn_of_ne_collecting _ (by simp [hst]))

end

/-- Settles O26: the first byte is A.SYNC0, each other one A.RESYNC. -/
theorem markerRunLeavesMatched : Obligations.MarkerRunLeavesMatched := by
  intro s n h hst hlegal hr
  obtain ⟨hne, -⟩ := hlegal
  have hrun := runsTo_idle_replicate n h hst hne hr
  exact ⟨s.synced, hrun.run, rfl, rfl, rfl, hrun.sameInputs, hrun.sameOutputs h⟩

/-- The reset state with other parameters (R34). -/
def State.resetWith (cfg : Config) : State := { State.reset with cfg := cfg }

/-- After reset MARKER0 MARKER0 MARKER1 is a marker pair with `REEVAL` (R104). -/
theorem runBytes_repeatedMarker_reeval {cfg : Config} (hne : cfg.marker0 ≠ cfg.marker1) (hr : cfg.reeval = true) :
    ∃ t, runBytes [cfg.marker0, cfg.marker0, cfg.marker1] (State.resetWith cfg) = .next t ∧
      t.st = .collecting ∧ t.len = 2 := by
  have hinv : (State.resetWith cfg).Inv := inv_of_empty rfl rfl rfl rfl
  obtain ⟨t, hpair, hst, hlen, -⟩ := runsTo_synced_marker1 (State.resetWith cfg)
  have hrun := (runsTo_idle_replicate 1 hinv rfl hne hr).append hpair
  exact ⟨t, hrun.run, hst, hlen⟩

/-- After reset MARKER0 MARKER0 MARKER1 without `REEVAL` is a start, a miss and a dropped byte (R104). -/
theorem runBytes_repeatedMarker_miss {cfg : Config} (hne : cfg.marker0 ≠ cfg.marker1) (hr : cfg.reeval = false) :
    ∃ t, runBytes [cfg.marker0, cfg.marker0, cfg.marker1] (State.resetWith cfg) = .next t ∧
      t.st = .idle ∧ t.len = 0 := by
  have hinv : (State.resetWith cfg).Inv := inv_of_empty rfl rfl rfl rfl
  have hfirst : byteStep cfg.marker0 (State.resetWith cfg) = .next (State.resetWith cfg).synced :=
    byteStep_idle_marker0 hinv rfl
  have hmiss : byteStep cfg.marker0 (State.resetWith cfg).synced = .next (State.resetWith cfg).bufferReset :=
    byteStep_synced_marker0_miss hne hr
  have hdrop : byteStep cfg.marker1 (State.resetWith cfg).bufferReset = .next (State.resetWith cfg).bufferReset :=
    congrArg (exec · _) (decodeByte_idle_other cfg 0 hne.symm)
  exact ⟨(State.resetWith cfg).bufferReset, by simp only [runBytes, hfirst, hmiss, hdrop, andThen_next], rfl, rfl⟩

/-- Only the rows of `MARKER0` in Matched read `REEVAL` (R66, R104). -/
theorem decodeByte_reeval (cfg : Config) (r : Bool) {st : ScanState} (len : Nat) {b : Byte}
    (h : ¬(st = .matched ∧ b = cfg.marker0)) :
    decodeByte { cfg with reeval := r } st len b = decodeByte cfg st len b := by
  cases st with
  | idle | collecting => rfl
  | matched =>
    have hb : b ≠ cfg.marker0 := fun hb => h ⟨rfl, hb⟩
    simp [decodeByte, hb]

/-- Settles O27: the rows of R66, and the two runs of three bytes from reset. -/
theorem reevalDecidesOnlyRepeatedMarkers : Obligations.ReevalDecidesOnlyRepeatedMarkers := by
  intro cfg hlegal
  obtain ⟨hne, -⟩ := hlegal
  exact ⟨decodeByte_matched_other { cfg with reeval := false } 1 hne (.inr rfl),
    fun st len b h => (decodeByte_reeval cfg false len h).trans (decodeByte_reeval cfg true len h).symm,
    runBytes_repeatedMarker_reeval (cfg := { cfg with reeval := true }) hne rfl,
    runBytes_repeatedMarker_miss (cfg := { cfg with reeval := false }) hne rfl⟩

end Sys2Proof.Machine
end

section
/-! The stream against the frames handed on (R101, R103): under the invariants the bytes received and the input are
gaps of discarded bytes, the frames, and the bytes the buffer holds at the end. -/

namespace Sys2Proof.Machine

/-- A stream is the frames `fs` in order, each after a gap, then a gap and at last `tail`. -/
def SplitsInto (stream : List Byte) (fs : List Frame) (tail : List Byte) : Prop :=
  ∃ (parts : List (List Byte × Frame)) (gap : List Byte), parts.map Prod.snd = fs ∧
    stream = parts.flatMap (fun p => p.1 ++ p.2.bytes) ++ gap ++ tail

namespace SplitsInto

variable {l tail : List Byte} {fs : List Frame}

theorem self (l : List Byte) : SplitsInto l [] l := ⟨[], [], rfl, rfl⟩

/-- A gap in front goes to the first frame's gap, or to the last gap where there is no frame. -/
theorem gap_append (g : List Byte) (h : SplitsInto l fs tail) : SplitsInto (g ++ l) fs tail := by
  obtain ⟨parts, gap, hframes, rfl⟩ := h
  cases parts with
  | nil => exact ⟨[], g ++ gap, hframes, by simp⟩
  | cons p ps => exact ⟨(g ++ p.1, p.2) :: ps, gap, hframes, by simp⟩

/-- A frame in front. -/
theorem frame_append (f : Frame) (h : SplitsInto l fs tail) : SplitsInto (f.bytes ++ l) (f :: fs) tail := by
  obtain ⟨parts, gap, rfl, rfl⟩ := h
  exact ⟨([], f) :: parts, gap, rfl, by simp⟩

/-- Each of the frames is a stretch of consecutive bytes of the stream. -/
theorem isInfix {f : Frame} (h : SplitsInto l fs tail) (hf : f ∈ fs) : f.bytes <:+: l := by
  obtain ⟨parts, gap, rfl, rfl⟩ := h
  obtain ⟨p, hp, rfl⟩ := List.mem_map.mp hf
  obtain ⟨before, after, rfl⟩ := List.append_of_mem hp
  exact ⟨before.flatMap (fun p => p.1 ++ p.2.bytes) ++ p.1,
    after.flatMap (fun p => p.1 ++ p.2.bytes) ++ gap ++ tail, by simp⟩

end SplitsInto

/-- A run splits the stream into the frames it hands on and the bytes it leaves in the buffer (R101). -/
theorem RunsTo.splitsInto {bs : List Byte} {s t : State} {fs : List Frame} (h : RunsTo bs s fs t) (hinv : s.Inv) :
    SplitsInto (s.bufBytes ++ bs) fs t.bufBytes := by
  induction bs generalizing s fs with
  | nil =>
    obtain ⟨hrun, rfl⟩ := h
    cases hrun
    rw [List.append_nil]
    exact SplitsInto.self _
  | cons b bs ih =>
    obtain ⟨v, fs', hstep, hrest, rfl⟩ := h.cons_cases
    have hvinv := byteStep_keeps_inv hinv hstep
    have hsplit := ih hrest hvinv
    cases hf : frameHandedOn s b with
    | none =>
      obtain ⟨gap, hgap⟩ := bufBytes_suffix hinv hf hstep
      have hstream : s.bufBytes ++ b :: bs = gap ++ (v.bufBytes ++ bs) := by
        rw [List.append_cons, ← hgap, List.append_assoc]
      rw [hstream]
      exact hsplit.gap_append gap
    | some f =>
      obtain ⟨-, hbytes⟩ := (frameHandedOn_eq_some_iff hinv).mp hf
      obtain ⟨hidle, -, -⟩ := scanEmpty_of_frameHandedOn hf hstep
      rw [List.append_cons, ← hbytes]
      rw [bufBytes_idle hvinv hidle, List.nil_append] at hsplit
      exact hsplit.frame_append f

/-- Every frame a run hands on has the marker (R101). -/
theorem RunsTo.frames_markerOk {bs : List Byte} {s t : State} {fs : List Frame} (h : RunsTo bs s fs t) (hinv : s.Inv) :
    ∀ f ∈ fs, markerOk s.cfg f := by
  induction bs generalizing s fs with
  | nil =>
    obtain ⟨-, rfl⟩ := h
    exact nofun
  | cons b bs ih =>
    obtain ⟨v, fs', hstep, hrest, rfl⟩ := h.cons_cases
    obtain ⟨hcfg, -, -⟩ := byteStep_sameInputs hstep
    intro f hf
    obtain hfirst | hlater := List.mem_append.mp hf
    · exact markerOk_of_frameHandedOn hinv (Option.mem_toList.mp hfirst)
    · exact hcfg ▸ ih hrest (byteStep_keeps_inv hinv hstep) f hlater

/-- Settles O50: the frames of a run have the marker, and the run splits the stream into them. -/
theorem framesAreMarkedStretchesOfTheStream : Obligations.FramesAreMarkedStretchesOfTheStream := by
  intro bs s hinv
  obtain ⟨t, hrun⟩ := RunsTo.exists_of_inv bs hinv
  have hsplit := hrun.splitsInto hinv
  refine ⟨fun f hf => ?_, ?_⟩
  · obtain ⟨h0, h1⟩ := hrun.frames_markerOk hinv f hf
    exact ⟨h0, h1, validate_ne_structuralError ⟨h0, h1⟩, hsplit.isInfix hf⟩
  · obtain ⟨parts, gap, hframes, hstream⟩ := hsplit
    exact ⟨parts, gap, t, hframes, hrun.run, hstream⟩

end Sys2Proof.Machine
end

section
/-! Noise without an adjacent marker pair, and a marked frame after it (R102, R104). -/

namespace Sys2Proof.Machine

/-- A sequence without an adjacent marker pair has none after its first byte. -/
theorem noMarkerPair_tail {cfg : Config} {a : Byte} {l : List Byte} (h : noMarkerPair cfg (a :: l) = true) :
    noMarkerPair cfg l = true := by
  cases l with
  | nil => rfl
  | cons b l =>
    rw [noMarkerPair, Bool.and_eq_true] at h
    exact h.2

/-- The end of a sequence without an adjacent marker pair has none. -/
theorem noMarkerPair_of_append {cfg : Config} {l m : List Byte} (h : noMarkerPair cfg (l ++ m) = true) :
    noMarkerPair cfg m = true := by
  induction l with
  | nil => exact h
  | cons a l ih => exact ih (noMarkerPair_tail h)

/-- A byte-step enters Collecting from another state only by `MARKER1` in Matched (R93). -/
theorem byteStep_enters_collecting {b : Byte} {s t : State} (hst : s.st ≠ .collecting)
    (hstep : byteStep b s = .next t) (ht : t.st = .collecting) : s.st = .matched ∧ b = s.cfg.marker1 := by
  obtain ⟨-, -, rfl⟩ | ⟨-, -, rfl⟩ | ⟨hmatched, hb, -⟩ | ⟨-, -, -, -, rfl⟩ | ⟨-, -, -, rfl⟩ |
    ⟨hcoll, -, -⟩ | ⟨hcoll, -, -⟩ := byteStep_cases hstep
  · cases ht
  · exact absurd ht hst
  · exact ⟨hmatched, hb⟩
  · cases ht
  · cases ht
  · exact absurd hcoll hst
  · exact absurd hcoll hst

/-- Outside Collecting, while the bytes received and the input hold no adjacent marker pair, no frame is handed on and
Collecting is not entered (R102). -/
theorem runsTo_noise (N : List Byte) {s : State} (h : s.Inv) (hst : s.st ≠ .collecting)
    (hpair : noMarkerPair s.cfg (s.bufBytes ++ N) = true) : ∃ t, RunsTo N s [] t ∧ t.st ≠ .collecting := by
  induction N generalizing s with
  | nil => exact ⟨s, RunsTo.nil s, hst⟩
  | cons b N ih =>
    obtain ⟨v, hstep⟩ := byteStep_total h b
    obtain ⟨hcfg, -, -⟩ := byteStep_sameInputs hstep
    have hnone : frameHandedOn s b = none := frameHandedOn_of_ne_collecting b hst
    have hvst : v.st ≠ .collecting := by
      intro hcoll
      obtain ⟨hmatched, rfl⟩ := byteStep_enters_collecting hst hstep hcoll
      simp [bufBytes_matched h hmatched, noMarkerPair] at hpair
    have hvpair : noMarkerPair v.cfg (v.bufBytes ++ N) = true := by
      obtain ⟨gap, hgap⟩ := bufBytes_suffix h hnone hstep
      rw [List.append_cons, ← hgap, List.append_assoc] at hpair
      exact hcfg ▸ noMarkerPair_of_append hpair
    obtain ⟨t, hrun, ht⟩ := ih (byteStep_keeps_inv h hstep) hvst hvpair
    exact ⟨t, hrun.cons_of_none hstep hnone, ht⟩

/-- The bytes of a frame with the marker: the marker pair, twelve bytes and the last (R61). -/
theorem bytes_of_markerOk {cfg : Config} {F : Frame} (h : markerOk cfg F) :
    ∃ l b, l.length = 12 ∧ F.bytes = [cfg.marker0] ++ [cfg.marker1] ++ l ++ [b] := by
  obtain ⟨bytes, hlen⟩ := F
  match bytes, hlen with
  | a :: a' :: r, hlen =>
    have hr : r.length = 13 := by simpa using hlen
    have hne : r ≠ [] := List.ne_nil_of_length_pos (by omega)
    obtain ⟨rfl, rfl⟩ : a = cfg.marker0 ∧ a' = cfg.marker1 := h
    exact ⟨r.dropLast, r.getLast hne, by simp [hr], by simp [List.dropLast_append_getLast]⟩

/-- From a state outside Collecting that accepts `MARKER0`, a frame with the marker is handed on (R97). -/
theorem runsTo_frame {s : State} {F : Frame} (h : s.Inv) (hst : s.st ≠ .collecting)
    (hne : s.cfg.marker0 ≠ s.cfg.marker1) (hr : s.cfg.reeval = true ∨ s.st = .idle) (hF : markerOk s.cfg F) :
    ∃ t, RunsTo F.bytes s [F] t ∧ ScanEmpty t := by
  obtain ⟨l, b, hl, hbytes⟩ := bytes_of_markerOk hF
  obtain ⟨v, hmark1, hvst, hvlen, hvbytes⟩ := runsTo_synced_marker1 s
  have hpair := (runsTo_marker0 h hst hne hr).append hmark1
  obtain ⟨w, hmiddle, hwst, hwbytes⟩ := runsTo_collecting l (hpair.inv h) hvst (by omega)
  have hfourteen := hpair.append hmiddle
  have hwinv := hfourteen.inv h
  have hframe : frameHandedOn w b = some F :=
    (frameHandedOn_eq_some_iff hwinv).mpr ⟨hwst, by rw [hwbytes, hvbytes, hbytes]; rfl⟩
  obtain ⟨t, hstep⟩ := byteStep_total hwinv b
  have hlast : RunsTo [b] w [F] t := by simpa [hframe] using RunsTo.cons hstep (RunsTo.nil t)
  exact ⟨t, hbytes ▸ hfourteen.append hlast, scanEmpty_of_frameHandedOn hframe hstep⟩

/-- Settles O53: the noise leaves a state outside Collecting, from which the frame is handed on. -/
theorem noiseThenFrameHandsOnThatFrame : Obligations.NoiseThenFrameHandsOnThatFrame := by
  intro s N F h hst hlegal hpair h0 h1 hr
  obtain ⟨hne, -⟩ := hlegal
  obtain ⟨u, hnoise, hust⟩ := runsTo_noise N h (by simp [hst]) (by rwa [bufBytes_idle h hst])
  obtain ⟨hcfg, -, -⟩ := hnoise.sameInputs
  have haccepts : u.cfg.reeval = true ∨ u.st = .idle := by
    rw [hcfg]
    refine hr.imp_right fun ⟨v, hv, hidle⟩ => ?_
    rw [hnoise.run] at hv
    cases hv
    exact hidle
  have hmark : markerOk u.cfg F := hcfg ▸ ⟨h0, h1⟩
  obtain ⟨t, hframe, hempty⟩ := runsTo_frame (hnoise.inv h) hust (by rwa [hcfg]) haccepts hmark
  have hrun : RunsTo (N ++ F.bytes) s [F] t := hnoise.append hframe
  obtain ⟨hcmds, hdiags⟩ := hrun.traces
  exact ⟨hrun.frames, t, hrun.run, hempty, hrun.sameInputs, by simpa using hcmds, by simpa using hdiags⟩

end Sys2Proof.Machine
end

section
/-! VALIDATE (R110 to R113) and what the checksum detects (R115 to R118): the covered sum in the ring of bytes. -/

namespace Sys2Proof.Machine

/-- A frame is of class StructuralError exactly when its marker is bad (R111). -/
theorem validate_eq_structuralError_iff (cfg : Config) (f : Frame) :
    validate cfg f = .structuralError ↔ f.byte 0 ≠ cfg.marker0 ∨ f.byte 1 ≠ cfg.marker1 := by
  unfold validate
  split_ifs with hmark hck
  · exact iff_of_true rfl hmark
  · exact iff_of_false nofun hmark
  · exact iff_of_false nofun hmark

/-- A frame is Valid exactly when its marker and its checksum are good (R110). -/
theorem validate_eq_valid_iff (cfg : Config) (f : Frame) :
    validate cfg f = .valid ↔ markerOk cfg f ∧ checksumOk f := by
  unfold validate
  split_ifs with hmark hck
  · exact iff_of_false nofun fun ⟨hm, _⟩ => hmark.elim (· hm.1) (· hm.2)
  · exact iff_of_false nofun fun ⟨_, hc⟩ => hck hc
  · exact iff_of_true rfl ⟨by simpa using hmark, not_not.mp hck⟩

/-- Settles O28: one equivalence per verdict. -/
theorem validateChecksMarkerThenChecksum : Obligations.ValidateChecksMarkerThenChecksum := fun cfg f =>
  ⟨validate_eq_structuralError_iff cfg f, (validate_eq_checksumError_iff cfg f).trans and_assoc,
    (validate_eq_valid_iff cfg f).trans and_assoc⟩

/-- `sum8` is the sum in the ring of bytes (R12, R115). -/
theorem sum8_eq_sum (l : List Byte) : sum8 l = l.sum := by
  induction l with
  | nil => rfl
  | cons b l ih =>
    have hcons : sum8 (b :: l) = b + sum8 l := by simp [sum8, byteSum, BitVec.ofNat_add]
    rw [hcons, ih, List.sum_cons]

/-- `sum8` as a number (R12). -/
theorem toNat_sum8 (l : List Byte) : (sum8 l).toNat = byteSum l % 256 :=
  BitVec.toNat_ofNat ..

/-- `sum8` agrees exactly when the sums agree modulo 256 (R12). -/
theorem sum8_eq_iff {l m : List Byte} : sum8 l = sum8 m ↔ byteSum l % 256 = byteSum m % 256 := by
  rw [← BitVec.toNat_inj, toNat_sum8, toNat_sum8]

/-- The checksum as a number (R112). -/
theorem toNat_checksum (l : List Byte) : (checksum l).toNat = 255 - byteSum l % 256 := by
  rw [checksum, BitVec.toNat_not, toNat_sum8]

/-- Settles O29: the complement as a number, and `sum8` as a sum in a commutative ring. -/
theorem checksumIsComplementOfTheWrappingSum : Obligations.ChecksumIsComplementOfTheWrappingSum := by
  refine ⟨fun P _ => toNat_checksum P, fun l l' hperm => ?_⟩
  calc l'.foldl (fun acc b => acc + b) 0#8
    _ = l'.sum := List.sum_eq_foldl.symm
    _ = l.sum := hperm.sum_eq.symm
    _ = sum8 l := (sum8_eq_sum l).symm

/-- A byte is the checksum of those before it exactly when they all sum to all ones: `s + c = s + ~s` (R116). -/
theorem eq_checksum_iff (l : List Byte) (c : Byte) : c = checksum l ↔ sum8 (l ++ [c]) = BitVec.allOnes 8 := by
  have hsum : sum8 (l ++ [c]) = sum8 l + c := by simp [sum8_eq_sum]
  rw [hsum, ← BitVec.add_not_self (sum8 l), checksum, add_right_inj]

/-- A frame is its covered bytes and the checksum byte (R61, R112). -/
theorem coveredBytes_append_last (f : Frame) : coveredBytes f ++ [f.byte 14] = f.bytes := by
  have htake : f.bytes.take 14 ++ [f.byte 14] = f.bytes.take 15 :=
    List.take_concat_get' f.bytes 14 (by rw [f.length_eq]; decide)
  exact htake.trans (List.take_of_length_le f.length_eq.le)

/-- The checksum of a frame is good exactly when its fifteen bytes sum to all ones (R116). -/
theorem checksumOk_iff (f : Frame) : checksumOk f ↔ sum8 f.bytes = BitVec.allOnes 8 := by
  rw [checksumOk, eq_checksum_iff, coveredBytes_append_last]

/-- The checksum of a frame is good exactly when the sum of its fifteen bytes is 255 modulo 256 (R116). -/
theorem checksumOk_iff_byteSum (f : Frame) : checksumOk f ↔ byteSum f.bytes % 256 = 255 := by
  rw [checksumOk_iff, ← BitVec.toNat_inj, toNat_sum8]
  rfl

/-- A frame is its first two bytes and the thirteen after them (R61). -/
theorem bytes_eq_markers_append (f : Frame) : f.bytes = f.byte 0 :: f.byte 1 :: f.bytes.drop 2 := by
  have h0 := List.getElem_cons_drop (as := f.bytes) (i := 0) (by rw [f.length_eq]; decide)
  have h1 := List.getElem_cons_drop (as := f.bytes) (i := 1) (by rw [f.length_eq]; decide)
  exact h0.symm.trans (congrArg (f.byte 0 :: ·) h1.symm)

/-- Settles O30: this hardware's markers sum to 0x68, and 0x68 + 0x97 is 255. -/
theorem validFramesSumToAllOnes : Obligations.ValidFramesSumToAllOnes := by
  intro cfg f h0 h1
  refine ⟨checksumOk_iff_byteSum f, fun hm0 hm1 => (checksumOk_iff_byteSum f).trans ?_⟩
  have hsplit : byteSum f.bytes = 0x21 + (0x47 + byteSum (f.bytes.drop 2)) := by
    conv_lhs => rw [bytes_eq_markers_append f, h0, h1, hm0, hm1]
    rfl
  change byteSum f.bytes % 256 = 255 ↔ byteSum (f.bytes.drop 2) % 256 = 0x97
  omega

/-- Settles O31: the frame has the marker, and its checksum check compares the last byte with that of `P`. -/
theorem checksumRoundTrips : Obligations.ChecksumRoundTrips := by
  intro cfg P f c hlen hp0 hp1 hbytes
  have hcovered : ∀ (i : Fin 15) (m : Byte), i.val < 14 → P[i.val]? = some m → f.byte i = m := fun i m hi hp => by
    rwa [← Option.some_inj, ← getElem?_bytes, hbytes, List.getElem?_append_left (by omega)]
  have hmark : markerOk cfg f := ⟨hcovered 0 _ (by decide) hp0, hcovered 1 _ (by decide) hp1⟩
  have hck : checksumOk f ↔ c = checksum P := by
    rw [checksumOk, byte_last_of_bytes_eq hbytes, coveredBytes, hbytes, ckSpan, List.take_left' hlen]
  exact ⟨fun h => (validate_eq_valid_iff cfg f).mpr ⟨hmark, hck.mpr h⟩,
    fun h => (validate_eq_checksumError_iff cfg f).mpr ⟨hmark, mt hck.mp h⟩⟩

/-- A change of exactly one byte changes the sum modulo 256 (R118). -/
theorem sum8_ne_of_one_change {f g : Frame} {i : Fin 15} (hi : g.byte i ≠ f.byte i)
    (hrest : ∀ j : Fin 15, j ≠ i → g.byte j = f.byte j) : sum8 g.bytes ≠ sum8 f.bytes := by
  have hset : g.bytes = f.bytes.set i (g.byte i) := by
    refine List.ext_getElem (by simp [f.length_eq, g.length_eq]) fun j hj _ => ?_
    obtain rfl | hne := eq_or_ne i.val j
    · simp [Frame.byte]
    · rw [List.getElem_set_ne hne]
      exact hrest ⟨j, g.length_eq ▸ hj⟩ fun h => hne (congrArg Fin.val h.symm)
  have hsum : sum8 g.bytes = sum8 f.bytes + (-f.byte i + g.byte i) := by
    rw [sum8_eq_sum, sum8_eq_sum, hset, List.sum_set', dif_pos (by rw [f.length_eq]; exact i.isLt)]
    rfl
  intro heq
  rw [hsum, add_eq_left, neg_add_eq_zero] at heq
  exact hi heq.symm

/-- A frame with the marker bytes and the sum of a Valid frame is Valid (R118). -/
theorem validate_eq_valid_of_sum8_eq {cfg : Config} {f g : Frame} (hvalid : validate cfg f = .valid)
    (h0 : g.byte 0 = f.byte 0) (h1 : g.byte 1 = f.byte 1) (hsum : sum8 g.bytes = sum8 f.bytes) :
    validate cfg g = .valid := by
  rw [validate_eq_valid_iff, markerOk, checksumOk_iff] at hvalid ⊢
  rwa [h0, h1, hsum]

/-- Settles O32: at offsets 0 and 1 the marker changes; elsewhere the marker stays and the sum changes; a reordering and
a change of equal sum leave marker and sum as they are. -/
theorem oneChangedByteIsCaughtOthersMayNotBe : Obligations.OneChangedByteIsCaughtOthersMayNotBe := by
  intro cfg f g hvalid
  obtain ⟨⟨hf0, hf1⟩, hck⟩ := (validate_eq_valid_iff cfg f).mp hvalid
  refine ⟨fun i hi hrest => ⟨fun hlt => ?_, fun hge => ?_⟩, fun h0 h1 hperm => ?_, fun h0 h1 hsum => ?_⟩
  · rw [validate_eq_structuralError_iff, ← hf0, ← hf1]
    obtain rfl | rfl : i = 0 ∨ i = 1 := by omega
    · exact .inl hi
    · exact .inr hi
  · have h0 : g.byte 0 = f.byte 0 := hrest 0 (by omega)
    have h1 : g.byte 1 = f.byte 1 := hrest 1 (by omega)
    refine (validate_eq_checksumError_iff cfg g).mpr ⟨⟨h0.trans hf0, h1.trans hf1⟩, fun hckg => ?_⟩
    rw [checksumOk_iff] at hck hckg
    exact sum8_ne_of_one_change hi hrest (hckg.trans hck.symm)
  · have hall : g.bytes.Perm f.bytes := by
      rw [bytes_eq_markers_append g, bytes_eq_markers_append f, h0, h1]
      exact (hperm.cons _).cons _
    have hsum : sum8 g.bytes = sum8 f.bytes := by rw [sum8_eq_sum, sum8_eq_sum, hall.sum_eq]
    exact validate_eq_valid_of_sum8_eq hvalid h0 h1 hsum
  · exact validate_eq_valid_of_sum8_eq hvalid h0 h1 (sum8_eq_iff.mpr hsum)

end Sys2Proof.Machine
end

section
/-! DECODE (R120, R121): the word of a field from its four bytes, and the frame of a sample (R84, R127). -/

namespace Sys2Proof.Machine

/-- Putting a byte under a number read so far is an `or` with the number shifted by 8 (R121). -/
theorem leNat_cons (b : Byte) (l : List Byte) : leNat (b :: l) = b.toNat ||| leNat l <<< 8 := by
  rw [leNat, add_comm, Nat.two_pow_add_eq_or_of_lt b.isLt, Nat.or_comm, Nat.shiftLeft_eq, Nat.mul_comm]

/-- Four bytes assembled, each shifted to its place (R121). -/
theorem leNat_four (b0 b1 b2 b3 : Byte) :
    leNat [b0, b1, b2, b3] = b0.toNat ||| b1.toNat <<< 8 ||| b2.toNat <<< 16 ||| b3.toNat <<< 24 := by
  have hnil : leNat [] = 0 := rfl
  simp [leNat_cons, hnil, Nat.shiftLeft_or_distrib, ← Nat.shiftLeft_add, Nat.or_assoc]

/-- Reading a byte and those after it (R12). -/
theorem memRead_succ (f : Frame) (i : Fin 15) (n : Nat) :
    memRead f i (n + 1) = (f.byte i).toNat + 256 * memRead f (i + 1) n := by
  have hi : i.val < f.bytes.length := f.length_eq.symm ▸ i.isLt
  rw [memRead, List.drop_eq_getElem_cons hi]
  rfl

/-- Four bytes read from a frame fill a word without overflow (R121). -/
theorem toNat_fieldWord (f : Frame) (off : Nat) : (fieldWord f off).toNat = memRead f off 4 := by
  rw [← extractLsb'_frameBits_eq_fieldWord]
  exact toNat_extractLsb'_frameBits f off 4

/-- A field's word is its four bytes, each shifted to its place (R120). -/
theorem toNat_fieldWord_eq_or (f : Frame) (off : Nat) (h : off + 3 < 15) :
    (fieldWord f off).toNat = (f.byte ⟨off, by omega⟩).toNat ||| (f.byte ⟨off + 1, by omega⟩).toNat <<< 8 |||
      (f.byte ⟨off + 2, by omega⟩).toNat <<< 16 ||| (f.byte ⟨off + 3, h⟩).toNat <<< 24 := by
  rw [toNat_fieldWord, ← leNat_four, memRead_succ f ⟨off, by omega⟩, memRead_succ f ⟨off + 1, by omega⟩,
    memRead_succ f ⟨off + 2, by omega⟩, memRead_succ f ⟨off + 3, h⟩]
  rfl

/-- Settles O36: the three fields are `fieldWord` at offsets 2, 6 and 10. -/
theorem decodeAssemblesLittleEndianWords : Obligations.DecodeAssemblesLittleEndianWords := fun f =>
  ⟨toNat_fieldWord_eq_or f offX (by decide), toNat_fieldWord_eq_or f offY (by decide),
    toNat_fieldWord_eq_or f offZ (by decide)⟩

/-- The four bytes of a word, read back, are the word (R43). -/
theorem leNat_wordBytes (w : Word) : leNat (wordBytes w) = w.toNat := by
  simp only [wordBytes, leNat, BitVec.extractLsb'_toNat, Nat.shiftRight_eq_div_pow]
  omega

/-- A field that holds the bytes of a word decodes to the word (R121). -/
theorem fieldWord_eq_of_wordBytes {f : Frame} {off : Nat} {w : Word}
    (h : (f.bytes.drop off).take 4 = wordBytes w) : fieldWord f off = w := by
  rw [fieldWord, memRead, h, leNat_wordBytes, BitVec.ofNat_toNat, BitVec.setWidth_eq]

/-- DECODE of a constructed frame, whatever its last byte, is its sample (R84, R126). -/
theorem decodeSampleOf_frameWith (cfg : Config) (smp : Sample) (ck : Byte) :
    decodeSampleOf (frameWith cfg smp ck) = smp := by
  have hx : fieldWord (frameWith cfg smp ck) offX = smp.x := fieldWord_eq_of_wordBytes rfl
  have hy : fieldWord (frameWith cfg smp ck) offY = smp.y := fieldWord_eq_of_wordBytes rfl
  have hz : fieldWord (frameWith cfg smp ck) offZ = smp.z := fieldWord_eq_of_wordBytes rfl
  rw [decodeSampleOf, hx, hy, hz]

/-- A frame constructed with its checksum is Valid (R84). -/
theorem validate_frameFor (cfg : Config) (smp : Sample) : validate cfg (frameFor cfg smp) = .valid :=
  (validate_eq_valid_iff cfg (frameFor cfg smp)).mpr ⟨⟨rfl, rfl⟩, rfl⟩

/-- Settles O38: the source's example is the frame constructed from 1.5, -2.25 and 0.0. -/
theorem constructedFramesDecodeToTheirSample : Obligations.ConstructedFramesDecodeToTheirSample :=
  ⟨fun cfg smp => ⟨decodeSampleOf_frameWith cfg smp _, validate_frameFor cfg smp⟩,
    decodeSampleOf_frameWith Config.hw ⟨0x3FC00000#32, 0xC0100000#32, 0#32⟩ 0xC8#8⟩

end Sys2Proof.Machine
end

section
/-! The class of a word against the threshold (R131 to R133): the bit ranges, and the exact comparison of the number the
word stands for with 1/5. -/

namespace Sys2Proof.Machine

/-- The sign bit is the top bit of the word (R65). -/
theorem signBit_eq_decide (w : Word) : signBit w = decide (2 ^ 31 ≤ w.toNat) :=
  (BitVec.msb_eq_getLsbD_last w).symm.trans (BitVec.msb_eq_decide w)

/-- The magnitude pattern is the word without its top bit (R65). -/
theorem toNat_magBits (w : Word) : (magBits w).toNat = w.toNat % 2 ^ 31 := by
  simp [magBits, BitVec.extractLsb'_toNat]

/-- `classify` with this hardware's TMAG, on the word as a number (R132). -/
theorem classify_hw (w : Word) :
    classify Config.hw w =
      if 0x7F800000 < w.toNat % 2 ^ 31 then .unordered
      else if w.toNat % 2 ^ 31 < 0x3E4CCCCD then .within
      else if 2 ^ 31 ≤ w.toNat then .neg
      else .pos := by
  simp [classify, BitVec.lt_def, toNat_magBits, signBit_eq_decide, infMag, Config.hw]

theorem classify_hw_eq_unordered_iff (w : Word) :
    classify Config.hw w = .unordered ↔ 0x7F800000 < w.toNat % 2 ^ 31 := by
  rw [classify_hw]
  split_ifs <;> simp <;> omega

theorem classify_hw_eq_within_iff (w : Word) :
    classify Config.hw w = .within ↔ w.toNat % 2 ^ 31 < 0x3E4CCCCD := by
  rw [classify_hw]
  split_ifs <;> simp <;> omega

theorem classify_hw_eq_pos_iff (w : Word) :
    classify Config.hw w = .pos ↔
      0x3E4CCCCD ≤ w.toNat % 2 ^ 31 ∧ w.toNat % 2 ^ 31 ≤ 0x7F800000 ∧ w.toNat < 2 ^ 31 := by
  rw [classify_hw]
  split_ifs <;> simp <;> omega

theorem classify_hw_eq_neg_iff (w : Word) :
    classify Config.hw w = .neg ↔
      0x3E4CCCCD ≤ w.toNat % 2 ^ 31 ∧ w.toNat % 2 ^ 31 ≤ 0x7F800000 ∧ 2 ^ 31 ≤ w.toNat := by
  rw [classify_hw]
  split_ifs <;> simp <;> omega

/-- The exponent field is the upper part of the magnitude pattern (R65). -/
theorem expBits_eq (w : Word) : expBits w = w.toNat % 2 ^ 31 / 2 ^ 23 := by
  rw [expBits, BitVec.extractLsb'_toNat, Nat.shiftRight_eq_div_pow]
  omega

/-- The fraction field is the lower part of the magnitude pattern (R65). -/
theorem fracBits_eq (w : Word) : fracBits w = w.toNat % 2 ^ 31 % 2 ^ 23 := by
  rw [fracBits, BitVec.extractLsb'_toNat, Nat.shiftRight_zero]
  omega

/-- A significand of 24 bits scaled by a power of two against 1/5: 2^(-26) is the one scale at which the significand
decides, and there 13421773 is the first integer above 2^26 / 5 (R133). -/
theorem threshold_lt_scaled_iff {sig : Nat} {exp : Int} (hsig : sig < 2 ^ 24) (hnormal : -26 < exp → 2 ^ 23 ≤ sig) :
    threshold < sig * (2 : ℚ) ^ exp ↔ -26 < exp ∨ exp = -26 ∧ 13421773 ≤ sig := by
  have hsigQ : (sig : ℚ) < 2 ^ 24 := by exact_mod_cast hsig
  rcases lt_trichotomy exp (-26) with hlt | rfl | hgt
  · have hscale : (2 : ℚ) ^ exp ≤ 2 ^ (-27 : Int) := zpow_le_zpow_right₀ (by norm_num) (by omega)
    have hbelow : sig * (2 : ℚ) ^ exp ≤ threshold :=
      calc sig * (2 : ℚ) ^ exp ≤ 2 ^ 24 * 2 ^ (-27 : Int) := by gcongr
        _ ≤ threshold := by norm_num [threshold]
    exact iff_of_false hbelow.not_gt (by omega)
  · have hcross : threshold < sig * (2 : ℚ) ^ (-26 : Int) ↔ (67108864 : ℚ) < 5 * sig := by
      rw [threshold, zpow_neg, ← div_eq_mul_inv, div_lt_div_iff₀ (by norm_num) (by positivity)]
      norm_num [mul_comm]
    have hcast : (67108864 : ℚ) < 5 * sig ↔ 67108864 < 5 * sig := by exact_mod_cast Iff.rfl
    rw [hcross, hcast]
    omega
  · have hsigQ' : (2 : ℚ) ^ 23 ≤ sig := by exact_mod_cast hnormal hgt
    have hscale : (2 : ℚ) ^ (-25 : Int) ≤ 2 ^ exp := zpow_le_zpow_right₀ (by norm_num) (by omega)
    have habove : threshold < sig * (2 : ℚ) ^ exp :=
      calc threshold < 2 ^ 23 * 2 ^ (-25 : Int) := by norm_num [threshold]
        _ ≤ sig * (2 : ℚ) ^ exp := by gcongr
    exact iff_of_true habove (.inl hgt)

/-- What a word stands for, by its magnitude pattern (R123): NaN above the infinity pattern, the infinity at it, below it
a finite value, whose magnitude is greater than 1/5 exactly from TMAG on (R133). -/
theorem f32_cases (w : Word) :
    (0x7F800000 < w.toNat % 2 ^ 31 ∧ f32 w = .nan) ∨
    (w.toNat % 2 ^ 31 = 0x7F800000 ∧ f32 w = .inf (signBit w)) ∨
    (w.toNat % 2 ^ 31 < 0x7F800000 ∧ ∃ sig exp, f32 w = .finite (signBit w) sig exp ∧
      (threshold < sig * (2 : ℚ) ^ exp ↔ 0x3E4CCCCD ≤ w.toNat % 2 ^ 31)) := by
  have hexp := expBits_eq w
  have hfrac := fracBits_eq w
  unfold f32
  split_ifs with he hf hz
  · exact .inr (.inl ⟨by omega, rfl⟩)
  · exact .inl ⟨by omega, rfl⟩
  · exact .inr (.inr ⟨by omega, _, _, rfl, (threshold_lt_scaled_iff (by omega) (by omega)).trans (by omega)⟩)
  · exact .inr (.inr ⟨by omega, _, _, rfl, (threshold_lt_scaled_iff (by omega) (by omega)).trans (by omega)⟩)

@[simp] theorem finiteValue_false (sig : Nat) (exp : Int) : finiteValue false sig exp = sig * (2 : ℚ) ^ exp := by
  simp [finiteValue]

@[simp] theorem finiteValue_true (sig : Nat) (exp : Int) : finiteValue true sig exp = -(sig * (2 : ℚ) ^ exp) := by
  simp [finiteValue]

theorem threshold_pos : 0 < threshold := by norm_num [threshold]

/-- A significand scaled by a power of two is a magnitude (R123). -/
theorem scaled_nonneg (sig : Nat) (exp : Int) : 0 ≤ sig * (2 : ℚ) ^ exp := by positivity

/-- A finite value is greater than the threshold when it is positive and its magnitude is (R131). -/
theorem aboveThreshold_finite_iff (neg : Bool) (sig : Nat) (exp : Int) :
    aboveThreshold (.finite neg sig exp) ↔ neg = false ∧ threshold < sig * (2 : ℚ) ^ exp := by
  cases neg with
  | false => simp [aboveThreshold]
  | true =>
    rw [aboveThreshold, finiteValue_true]
    exact iff_of_false (by linarith [threshold_pos, scaled_nonneg sig exp]) nofun

/-- A finite value is less than the threshold's negative when it is negative and its magnitude is above (R131). -/
theorem belowThreshold_finite_iff (neg : Bool) (sig : Nat) (exp : Int) :
    belowThreshold (.finite neg sig exp) ↔ neg = true ∧ threshold < sig * (2 : ℚ) ^ exp := by
  cases neg with
  | false =>
    rw [belowThreshold, finiteValue_false]
    exact iff_of_false (by linarith [threshold_pos, scaled_nonneg sig exp]) nofun
  | true => simp [belowThreshold]

theorem withinThreshold_finite_iff (neg : Bool) (sig : Nat) (exp : Int) :
    withinThreshold (.finite neg sig exp) ↔ ¬ threshold < sig * (2 : ℚ) ^ exp := by
  have habs : |finiteValue neg sig exp| = sig * (2 : ℚ) ^ exp := by
    cases neg <;> simp [abs_of_nonneg (scaled_nonneg sig exp)]
  rw [withinThreshold, habs, not_lt]

theorem f32_eq_nan_iff (w : Word) : f32 w = .nan ↔ 0x7F800000 < w.toNat % 2 ^ 31 := by
  obtain ⟨hm, hw⟩ | ⟨hm, hw⟩ | ⟨hm, sig, exp, hw, -⟩ := f32_cases w <;> simp [hw] <;> omega

theorem aboveThreshold_f32_iff (w : Word) :
    aboveThreshold (f32 w) ↔
      0x3E4CCCCD ≤ w.toNat % 2 ^ 31 ∧ w.toNat % 2 ^ 31 ≤ 0x7F800000 ∧ w.toNat < 2 ^ 31 := by
  obtain ⟨hm, hw⟩ | ⟨hm, hw⟩ | ⟨hm, sig, exp, hw, hmag⟩ := f32_cases w
  · rw [hw]
    exact iff_of_false id (by omega)
  · simp only [hw, aboveThreshold, signBit_eq_decide, decide_eq_false_iff_not]
    omega
  · rw [hw, aboveThreshold_finite_iff, hmag, signBit_eq_decide, decide_eq_false_iff_not]
    omega

theorem belowThreshold_f32_iff (w : Word) :
    belowThreshold (f32 w) ↔
      0x3E4CCCCD ≤ w.toNat % 2 ^ 31 ∧ w.toNat % 2 ^ 31 ≤ 0x7F800000 ∧ 2 ^ 31 ≤ w.toNat := by
  obtain ⟨hm, hw⟩ | ⟨hm, hw⟩ | ⟨hm, sig, exp, hw, hmag⟩ := f32_cases w
  · rw [hw]
    exact iff_of_false id (by omega)
  · simp only [hw, belowThreshold, signBit_eq_decide, decide_eq_true_eq]
    omega
  · rw [hw, belowThreshold_finite_iff, hmag, signBit_eq_decide, decide_eq_true_eq]
    omega

theorem withinThreshold_f32_iff (w : Word) : withinThreshold (f32 w) ↔ w.toNat % 2 ^ 31 < 0x3E4CCCCD := by
  obtain ⟨hm, hw⟩ | ⟨hm, hw⟩ | ⟨hm, sig, exp, hw, hmag⟩ := f32_cases w
  · rw [hw]
    exact iff_of_false id (by omega)
  · rw [hw]
    exact iff_of_false id (by omega)
  · rw [hw, withinThreshold_finite_iff, hmag, not_le]

/-- Settles O40: each class and the comparison it stands for are the same range of bit patterns. -/
theorem classifyIsTheExactComparison : Obligations.ClassifyIsTheExactComparison := fun w =>
  ⟨classify_hw_eq_unordered_iff w, classify_hw_eq_pos_iff w, classify_hw_eq_neg_iff w, classify_hw_eq_within_iff w,
    (classify_hw_eq_unordered_iff w).trans (f32_eq_nan_iff w).symm,
    (classify_hw_eq_pos_iff w).trans (aboveThreshold_f32_iff w).symm,
    (classify_hw_eq_neg_iff w).trans (belowThreshold_f32_iff w).symm,
    (classify_hw_eq_within_iff w).trans (withinThreshold_f32_iff w).symm⟩

end Sys2Proof.Machine
end

section
/-! MAP's list of a sample (R130, R138 to R141, R144). -/

namespace Sys2Proof.Machine

/-- MAP is the table of R139: the five tests decided, class by class. -/
theorem mapCommands_eq_mapTable (cfg : Config) (smp : Sample) :
    mapCommands cfg smp = mapTable cfg (classify cfg smp.y) (classify cfg smp.x) := by
  unfold mapCommands
  cases classify cfg smp.y <;> cases classify cfg smp.x <;> rfl

/-- Settles O41. -/
theorem mapFollowsTheOutcomeTable : Obligations.MapFollowsTheOutcomeTable := mapCommands_eq_mapTable

/-- Settles O42: read off the sixteen cells of the table. -/
theorem sampleCommandCounts : Obligations.SampleCommandCounts := by
  intro cfg smp
  rw [mapCommands_eq_mapTable]
  cases classify cfg smp.y <;> cases classify cfg smp.x <;>
    simp [mapTable, forwardCmd, backwardCmd, rightCmd, leftCmd]

/-- MAP reads x and y alone (R144). -/
theorem mapCommands_congr (cfg : Config) {a b : Sample} (hx : a.x = b.x) (hy : a.y = b.y) :
    mapCommands cfg a = mapCommands cfg b := by
  rw [mapCommands_eq_mapTable, mapCommands_eq_mapTable, hx, hy]

/-- A field's word depends on its four bytes alone (R120). -/
theorem fieldWord_congr {f g : Frame} {off : Nat} (hoff : off + 3 < 15)
    (h : ∀ i : Fin 15, off ≤ i.val → i.val ≤ off + 3 → f.byte i = g.byte i) : fieldWord f off = fieldWord g off := by
  apply BitVec.eq_of_toNat_eq
  rw [toNat_fieldWord_eq_or f off hoff, toNat_fieldWord_eq_or g off hoff]
  have hbyte (k : Nat) (hk : k ≤ 3) : f.byte ⟨off + k, by omega⟩ = g.byte ⟨off + k, by omega⟩ :=
    h _ (by simp) (by simpa using hk)
  rw [hbyte 1 (by decide), hbyte 2 (by decide), hbyte 3 (by decide), h ⟨off, by omega⟩ le_rfl (by simp)]

/-- Settles O43: x and y are decoded from bytes 2 to 9, and MAP reads nothing else. -/
theorem fieldZHasNoEffect : Obligations.FieldZHasNoEffect := by
  refine ⟨fun cfg x y z z' => mapCommands_congr cfg rfl rfl, fun cfg f g hf hg hbytes => ?_⟩
  have hx : (decodeSampleOf f).x = (decodeSampleOf g).x :=
    fieldWord_congr (off := offX) (by decide) fun i _ hi => hbytes i (Nat.lt_of_le_of_lt hi (by decide))
  have hy : (decodeSampleOf f).y = (decodeSampleOf g).y :=
    fieldWord_congr (off := offY) (by decide) fun i _ hi => hbytes i (Nat.lt_of_le_of_lt hi (by decide))
  simp [frameCommands, frameEvents, hf, hg, mapCommands_congr cfg hx hy]

end Sys2Proof.Machine
end

section
/-! The emission rules (R134 to R138): when a sample selects each, and that each appends its command to MAP's list. -/

namespace Sys2Proof.Machine

/-- A row whose word is the sample's is selected exactly under the row's condition (R68). -/
theorem mem_decodeSample_iff_condition {cfg : Config} {smp : Sample} {i : Instr} {p : Prop} [Decidable p]
    (henc : encode cfg i = .sample (sampleBits smp)) (hwf : i.wellFormed cfg = decide p) :
    i ∈ decodeSample cfg smp ↔ p := by
  rw [mem_decodeSample_iff, and_iff_left henc, hwf, decide_eq_true_iff]

theorem mStop_mem_decodeSample_iff (cfg : Config) (smp : Sample) :
    .mStop smp ∈ decodeSample cfg smp ↔ classify cfg smp.x = .within ∧ classify cfg smp.y = .within :=
  mem_decodeSample_iff_condition rfl rfl

/-- A tested row is at most that row. -/
theorem ite_singleton_sublist (p : Prop) [Decidable p] (i : Instr) : (if p then [i] else []).Sublist [i] := by
  split
  · exact .refl _
  · exact List.nil_sublist _

/-- The rows a sample selects stand in the order MAP tests them (R130). -/
theorem decodeSample_sublist (cfg : Config) (smp : Sample) :
    (decodeSample cfg smp).Sublist [.mFwd smp, .mBwd smp, .mRight smp, .mLeft smp, .mStop smp] :=
  ((((ite_singleton_sublist _ _).append (ite_singleton_sublist _ _)).append (ite_singleton_sublist _ _)).append
    (ite_singleton_sublist _ _)).append (ite_singleton_sublist _ _)

/-- Where M.STOP is selected no other row is (R138). -/
theorem decodeSample_eq_mStop {cfg : Config} {smp : Sample} (h : .mStop smp ∈ decodeSample cfg smp) :
    decodeSample cfg smp = [.mStop smp] := by
  obtain ⟨hx, hy⟩ := (mStop_mem_decodeSample_iff cfg smp).mp h
  simp [decodeSample, hx, hy]

/-- Settles O44: each rule is selected under its row's condition, its class is a range of bits, and its effect is `emit`. -/
theorem emissionRulesAppendTheirCommand : Obligations.EmissionRulesAppendTheirCommand := by
  refine ⟨fun cfg smp => ?_, fun w => ?_, fun s smp i c h => ?_⟩
  · exact ⟨mem_decodeSample_iff_condition rfl rfl, mem_decodeSample_iff_condition rfl rfl,
      mem_decodeSample_iff_condition rfl rfl, mem_decodeSample_iff_condition rfl rfl,
      mStop_mem_decodeSample_iff cfg smp, decodeSample_sublist cfg smp, decodeSample_eq_mStop⟩
  · exact ⟨(classify_hw_eq_pos_iff w).trans (by tauto), (classify_hw_eq_neg_iff w).trans (by tauto),
      classify_hw_eq_within_iff w⟩
  · have hemit : exec i s = .next (s.emit c) := by
      obtain ⟨rfl, rfl⟩ | ⟨rfl, rfl⟩ | ⟨rfl, rfl⟩ | ⟨rfl, rfl⟩ | ⟨rfl, rfl⟩ := h <;> rfl
    exact ⟨_, hemit, by simp [SameInputs, SameScan]⟩

end Sys2Proof.Machine
end

section
/-! F.VALID as a sequence of rows (R130, R151, R152): the emission rules leave MAP's list, and each command of the list is
handed out by its command row and its event row. -/

namespace Sys2Proof.Machine

/-- A sequence of operations is its parts, one after the other. -/
theorem execAll_append (l m : List Instr) (s : State) : execAll (l ++ m) s = andThen (execAll l s) (execAll m) := by
  induction l generalizing s with
  | nil => rfl
  | cons i l ih => exact (congrArg (andThen (exec i s)) (funext ih)).trans (andThen_assoc _ _ _).symm

/-- One of MAP's tests run as a row: its command is appended when the test holds (R130). -/
theorem execAll_ite_emit {p : Prop} [Decidable p] {i : Instr} {c : Command} {s : State}
    (h : exec i s = .next (s.emit c)) :
    execAll (if p then [i] else []) s = .next { s with pend := s.pend ++ if p then [c] else [] } := by
  split
  · rw [execAll, h]
    rfl
  · simp [execAll]

/-- The emission rules a sample selects append MAP's list (R130). -/
theorem execAll_decodeSample (smp : Sample) (s : State) :
    execAll (decodeSample s.cfg smp) s = .next { s with pend := s.pend ++ mapCommands s.cfg smp } := by
  simp only [decodeSample, mapCommands, execAll_append, ← List.append_assoc]
  rw [execAll_ite_emit rfl, andThen_next, execAll_ite_emit rfl, andThen_next, execAll_ite_emit rfl, andThen_next,
    execAll_ite_emit rfl, andThen_next, execAll_ite_emit rfl]

/-- The command row of a command MAP gives hands out that command, its duties being the parameters' (R70, R145). -/
theorem exec_commandRow {smp : Sample} {c : Command} {s : State} (hc : c ∈ mapCommands s.cfg smp) :
    exec (commandRow c.tag) s = .next (s.applyCmd c) := by
  simp only [mapCommands, List.mem_append, List.mem_ite_nil_right, List.mem_singleton] at hc
  obtain (((⟨-, rfl⟩ | ⟨-, rfl⟩) | ⟨-, rfl⟩) | ⟨-, rfl⟩) | ⟨-, rfl⟩ := hc <;> rfl

/-- The event row of a tag hands out the event of the tag (R71). -/
theorem exec_eventRow (g : Tag) (s : State) : exec (eventRow g) s = .next (s.diag (.cmd g)) := by
  cases g <;> rfl

/-- The command and event rows of commands MAP gives are SINK's loop over them (R152). -/
theorem execAll_outputRows {smp : Sample} (cs : List Command) {s : State} (hcs : ∀ c ∈ cs, c ∈ mapCommands s.cfg smp) :
    execAll (cs.flatMap fun c => [commandRow c.tag, eventRow c.tag]) s = .next (cs.foldl State.handOut s) := by
  induction cs generalizing s with
  | nil => rfl
  | cons c cs ih =>
    obtain ⟨hc, htail⟩ := List.forall_mem_cons.mp hcs
    have hturn : execAll [commandRow c.tag, eventRow c.tag] s = .next (s.handOut c) := by
      rw [execAll, exec_commandRow hc, andThen_next, execAll, exec_eventRow]
      rfl
    rw [List.flatMap_cons, execAll_append, hturn, andThen_next, ih (by simpa using htail), List.foldl_cons]

/-- Settles O35: from an empty list the emission rules leave MAP's list, and its rows are the loop of SINK. -/
theorem validFrameRunsTheTablesRows : Obligations.ValidFrameRunsTheTablesRows := by
  intro s f
  have hmap := execAll_decodeSample (decodeSampleOf f) { s with pend := [] }
  refine ⟨hmap, ?_⟩
  rw [hmap, andThen_next]
  exact execAll_outputRows (smp := decodeSampleOf f) (mapCommands s.cfg (decodeSampleOf f)) fun _ hc => hc

end Sys2Proof.Machine
end

section
/-! The row a turn of the loop runs (R90, R150), and what the Valid row hands out (R151, R152). -/

namespace Sys2Proof.Machine

/-- Settles O34: F.VALID is `acceptFrame`, whose whole effect is `acceptFrame_eq`. -/
theorem validFrameHandsOutItsCommands : Obligations.ValidFrameHandsOutItsCommands := fun s f =>
  ⟨s.acceptFrame f, rfl, by simp [acceptFrame_eq, SameInputs, SameScan]⟩

/-- Settles O4: such a step is the byte-step, which is the row the byte decodes to. -/
theorem stepRunsTheSelectedOperation : Obligations.StepRunsTheSelectedOperation := fun _ _ _ hr hp hi =>
  step_eq_byteStep hr hp hi

end Sys2Proof.Machine
end

section
/-! What one byte-step puts out (R153, R156): nothing but what the frame it hands on causes. -/

namespace Sys2Proof.Machine

section
variable {cfg : Config} {f : Frame}

/-- A frame that is not Valid causes no command (R173, R174). -/
theorem frameCommands_of_not_valid (h : validate cfg f ≠ .valid) : frameCommands cfg f = [] := by
  unfold frameCommands
  split
  · next hv => exact absurd hv h
  · rfl

/-- Without the diagnostic sink a frame causes no event (R176). -/
theorem frameEvents_of_not_hasDiag (h : cfg.hasDiag = false) : frameEvents cfg f = [] := by
  unfold frameEvents eventsOf
  cases validate cfg f <;> simp [h]

/-- With the diagnostic sink a StructuralError is one event (R173). -/
theorem frameEvents_of_structuralError (hd : cfg.hasDiag = true) (h : validate cfg f = .structuralError) :
    frameEvents cfg f = [.struct] := by
  simp [frameEvents, h, hd]

/-- With the diagnostic sink a ChecksumError is one event (R174). -/
theorem frameEvents_of_checksumError (hd : cfg.hasDiag = true) (h : validate cfg f = .checksumError) :
    frameEvents cfg f = [.cksum] := by
  simp [frameEvents, h, hd]

/-- With the diagnostic sink a Valid frame causes one event per command (R152). -/
theorem frameEvents_of_valid (hd : cfg.hasDiag = true) (h : validate cfg f = .valid) :
    frameEvents cfg f = (frameCommands cfg f).map fun c => .cmd c.tag := by
  simp [frameEvents, frameCommands, eventsOf, h, hd]

end

/-- Settles O48: a byte-step puts out what the frame it hands on causes. -/
theorem onlyValidFramesCommand : Obligations.OnlyValidFramesCommand := by
  intro s t b hstep hrejected
  obtain ⟨-, hcmds, -⟩ | ⟨f, hf, hcmds, -⟩ := byteStep_traces hstep
  · exact hcmds
  · rw [hcmds, frameCommands_of_not_valid (hrejected f hf), List.append_nil]

/-- Settles O11: totality is `byteStep_total`, and the outputs are those of the frame handed on, if there is one. -/
theorem byteStepIsTotalAndBounded : Obligations.ByteStepIsTotalAndBounded := by
  refine ⟨fun s b h => byteStep_total h b, fun s t b hstep => ?_⟩
  obtain ⟨hnone, hcmds, hdiags⟩ | ⟨f, hf, hcmds, hdiags⟩ := byteStep_traces hstep
  · exact ⟨[], [], by simp [hcmds, hdiags, hnone]⟩
  · have hsame : ∀ g, frameHandedOn s b = some g → g = f := fun g hg => Option.some.inj (hg.symm.trans hf)
    refine ⟨frameCommands s.cfg f, frameEvents s.cfg f, hcmds, hdiags, frameCommands_length_le s.cfg f,
      frameEvents_length_le s.cfg f, fun hne => ⟨f, hf, ?_⟩, frameEvents_of_not_hasDiag, fun hd => ⟨by simp [hf], ?_⟩⟩
    · by_contra hv
      exact hne (frameCommands_of_not_valid hv)
    · exact ⟨fun g hg hv => frameEvents_of_structuralError hd (hsame g hg ▸ hv),
        fun g hg hv => frameEvents_of_checksumError hd (hsame g hg ▸ hv),
        fun g hg hv => frameEvents_of_valid hd (hsame g hg ▸ hv)⟩

end Sys2Proof.Machine
end

section
/-! The loop of R150 as a run over bytes (R157): on the bytes waiting, and on a finite or infinite source. -/

namespace Sys2Proof.Machine

/-- With nothing pending a byte-step does not depend on the undelivered bytes and leaves them as they are (R33, R46). -/
theorem byteStep_withInput {b : Byte} {s t : State} (l : List Byte) (hp : s.pend = [])
    (hstep : byteStep b s = .next t) :
    byteStep b { s with input := l } = .next { t with input := l } := by
  rw [byteStep_eq_advance b hp] at hstep
  obtain ⟨u, hu, hadvance⟩ := andThen_eq_next hstep
  cases hadvance
  have hblock : byteStep b (State.blockOnly { s with input := l }) = .next u := hu
  rw [byteStep_eq_advance (s := { s with input := l }) b hp, hblock]
  rfl

/-- A run over one byte is its byte-step. -/
theorem runBytes_singleton (b : Byte) (s : State) : runBytes [b] s = byteStep b s := by
  rw [runBytes]
  cases byteStep b s <;> rfl

/-- From the invariants with reset released, as many turns of the loop as bytes wait are the run over those bytes. -/
theorem core_run_eq_runBytes (l : List Byte) {s : State} (h : s.Inv) (hr : s.rst = false) :
    Host.Core.run core l.length { s with input := l } = runBytes l { s with input := [] } := by
  induction l generalizing s with
  | nil => rfl
  | cons b l ih =>
    have ⟨_, _, _, _, hp⟩ := h
    obtain ⟨t, hstep⟩ := byteStep_total h b
    obtain ⟨-, hrst, -⟩ := byteStep_sameInputs hstep
    have hturn : step { s with input := b :: l } = .next { t with input := l } :=
      calc step { s with input := b :: l }
        _ = byteStep b { s with input := l } := step_eq_byteStep (s := { s with input := b :: l }) hr hp rfl
        _ = .next { t with input := l } := byteStep_withInput l hp hstep
    rw [List.length_cons, core_run_succ l.length hturn, ih (byteStep_keeps_inv h hstep) (hrst.trans hr), runBytes,
      byteStep_withInput [] hp hstep, andThen_next]

/-- One more position of a source adds its byte there, if there is one (R47). -/
theorem first_succ (src : ByteSource) (n : Nat) : src.first (n + 1) = src.first n ++ (src.byte? n).toList := by
  unfold ByteSource.first
  rw [List.range_succ, List.filterMap_append]
  cases h : src.byte? n <;> simp [h]

/-- From the invariants with reset released and nothing unread, the loop on a source is the run over the source's bytes
of the positions offered (R150, R157). -/
theorem sourceRun_eq_runBytes (src : ByteSource) (n : Nat) {s : State} (h : s.Inv) (hr : s.rst = false)
    (hi : s.input = []) : sourceRun src n s = runBytes (src.first n) s := by
  induction n with
  | zero => rfl
  | succ n ih =>
    obtain ⟨t, hrun⟩ := RunsTo.exists_of_inv (src.first n) h
    obtain ⟨-, hrst, hinput⟩ := hrun.sameInputs
    have ⟨_, _, _, _, hp⟩ := hrun.inv h
    rw [sourceRun, ih, first_succ, runBytes_append, hrun.run, andThen_next, andThen_next,
      pipelineStep_deliver t (src.byte? n) (hrst.trans hr) hp (hinput.trans hi)]
    cases src.byte? n with
    | none => rfl
    | some b => exact (runBytes_singleton b t).symm

/-- Settles O54: the loop on the bytes waiting and the loop on a source are both runs, which are total on the
invariants and leave the inputs as they were. -/
theorem runsComposeAndConsumeAllInput : Obligations.RunsComposeAndConsumeAllInput := by
  refine ⟨runBytes_append, fun s h hr => ?_, fun src n s h hr hi => ?_, finite_first, infinite_first⟩
  · have hempty : State.Inv { s with input := [] } := h
    obtain ⟨t, hrun⟩ := RunsTo.exists_of_inv s.input hempty
    obtain ⟨-, hrst, hinput⟩ := hrun.sameInputs
    have ⟨_, _, _, _, hp⟩ := hrun.inv hempty
    exact ⟨t, (core_run_eq_runBytes s.input h hr).trans hrun.run, hinput, hrun.run,
      step_eq_self (hrst.trans hr) hp hinput⟩
  · obtain ⟨t, hrun⟩ := RunsTo.exists_of_inv (src.first n) h
    obtain ⟨-, -, hinput⟩ := hrun.sameInputs
    exact ⟨t, (sourceRun_eq_runBytes src n h hr hi).trans hrun.run, hrun.inv h, hinput.trans hi, hrun.run⟩

end Sys2Proof.Machine
end

section
/-! Frames that are rejected, and streams in which no frame is completed (R173 to R175, R184). -/

namespace Sys2Proof.Machine

/-- Taking an exception puts out its event and changes nothing else (R173, R174, R178). -/
theorem raiseException_effect (e : FrameException) (s : State) :
    (s.raiseException e).diags = s.diags ++ (if s.cfg.hasDiag then [exceptionEvent e] else []) ∧
    SameInputs s (s.raiseException e) ∧ SameScan s (s.raiseException e) ∧
    (s.raiseException e).pend = s.pend ∧ (s.raiseException e).cmds = s.cmds := by
  simp [SameInputs, SameScan]

/-- PROCESS on a frame that is not Valid takes one exception, whose event is the frame's (R151, R173, R174). -/
theorem processFrame_of_not_valid {s : State} {f : Frame} (h : validate s.cfg f ≠ .valid) :
    ∃ e, s.processFrame f = s.raiseException e ∧
      frameEvents s.cfg f = if s.cfg.hasDiag then [exceptionEvent e] else [] := by
  unfold State.processFrame frameEvents
  cases hv : validate s.cfg f with
  | structuralError => exact ⟨.structural, rfl, rfl⟩
  | checksumError => exact ⟨.checksum, rfl, rfl⟩
  | valid => exact absurd hv h

/-- A bad marker selects F.STRUCT, whatever the checksum (R68, R111). -/
theorem decodeFrame_of_bad_marker {cfg : Config} {f : Frame} (h : f.byte 0 ≠ cfg.marker0 ∨ f.byte 1 ≠ cfg.marker1) :
    decodeFrame cfg f = .fStruct f := by
  rw [decodeFrame, (validate_eq_structuralError_iff cfg f).mpr h]

/-- A good marker with a bad checksum selects F.CKSUM (R68, R113). -/
theorem decodeFrame_of_bad_checksum {cfg : Config} {f : Frame} (hm : markerOk cfg f) (hc : ¬ checksumOk f) :
    decodeFrame cfg f = .fCksum f := by
  rw [decodeFrame, (validate_eq_checksumError_iff cfg f).mpr ⟨hm, hc⟩]

/-- A byte-step that completes a rejected frame takes the frame's exception after the buffer reset (R97, R151). -/
theorem byteStep_of_rejected {s : State} {b : Byte} {f : Frame} (hf : frameHandedOn s b = some f)
    (hv : validate s.cfg f ≠ .valid) :
    ∃ e, byteStep b s = .next (s.bufferReset.raiseException e) ∧
      frameEvents s.cfg f = if s.cfg.hasDiag then [exceptionEvent e] else [] := by
  obtain ⟨e, hraise, hevents⟩ := processFrame_of_not_valid (s := s.bufferReset) hv
  exact ⟨e, (byteStep_of_frameHandedOn hf).trans (congrArg _ hraise), hevents⟩

/-- Settles O33: each of the two rows, and after the buffer reset the byte-step too, takes one exception. -/
theorem rejectedFramesRaiseOneEventOnly : Obligations.RejectedFramesRaiseOneEventOnly := by
  refine ⟨fun s f => ⟨⟨_, rfl, raiseException_effect .structural s⟩, ⟨_, rfl, raiseException_effect .checksum s⟩,
    decodeFrame_of_bad_marker, fun h0 h1 hc => decodeFrame_of_bad_checksum ⟨h0, h1⟩ hc⟩, fun s b f hf hv => ?_⟩
  obtain ⟨e, hstep, hevents⟩ := byteStep_of_rejected hf hv
  obtain ⟨hdiags, hinputs, -, hpend, hcmds⟩ := raiseException_effect e s.bufferReset
  exact ⟨_, hstep, scanEmpty_of_frameHandedOn hf hstep, hinputs, hpend, hcmds, hevents ▸ hdiags⟩

/-- Settles O49: a run that goes through puts out what the frames it hands on cause. -/
theorem tracesAreTheFramesHandedOn : Obligations.TracesAreTheFramesHandedOn := fun _ _ _ hrun =>
  RunsTo.traces ⟨hrun, rfl⟩

/-- Settles O52: in Idle the buffer is empty, so the input alone is the noise that completes no marker pair. -/
theorem starvedStreamsPutNothingOut : Obligations.StarvedStreamsPutNothingOut := by
  intro s N h hst _ hpair
  obtain ⟨t, hnoise, ht⟩ := runsTo_noise N h (by simp [hst]) (by rwa [bufBytes_idle h hst])
  exact ⟨t, hnoise.run, ht, hnoise.sameInputs, hnoise.sameOutputs h, hnoise.frames⟩

end Sys2Proof.Machine
end

section
/-! Reset asserted (R190, R191), and a frame that a false synchronisation swallows (R195, R196). -/

namespace Sys2Proof.Machine

/-- With reset asserted a step is the reset event, whatever is pending or waiting (R190, R191). -/
theorem step_eq_resetEvent {s : State} (hr : s.rst = true) : step s = .next s.resetEvent := by
  simp [step, pipelineStep, hr]

/-- Settles O3: such a step is the reset event, which writes the scan state and the latch alone. -/
theorem assertedResetDiscardsTheScanState : Obligations.AssertedResetDiscardsTheScanState := fun s hr =>
  ⟨s.resetEvent, step_eq_resetEvent hr, ⟨rfl, rfl, read_nil⟩, rfl, ⟨rfl, rfl, rfl⟩, rfl, rfl⟩

/-- Noise that looks like a marker (program P4). -/
def falseSync : List Byte := [0x21#8, 0x47#8, 0xAA#8, 0xBB#8]

/-- Frame A of program P4, y = 0.5. -/
def swallowedFrame : Frame := frameFor Config.hw ⟨0#32, 0x3F000000#32, 0#32⟩

/-- Frame B of program P4, x = −0.5. -/
def laterFrame : Frame := frameFor Config.hw ⟨0xBF000000#32, 0#32, 0#32⟩

/-- The fifteen bytes taken after the false marker: the noise and the first eleven of frame A (R196). -/
def falseFrame : Frame := ⟨falseSync ++ swallowedFrame.bytes.take 11, rfl⟩

/-- Program P4 hands on the false frame and frame B; the rest of frame A is noise (R195, R196). -/
theorem runsTo_falseSync :
    ∃ t, RunsTo (falseSync ++ swallowedFrame.bytes ++ laterFrame.bytes) State.reset [falseFrame, laterFrame] t := by
  obtain ⟨hinv, -⟩ := resetMeetsInvariants
  obtain ⟨u, hfalse, hidle, -, -⟩ := runsTo_frame (F := falseFrame) hinv nofun (by decide) (.inr rfl) ⟨rfl, rfl⟩
  obtain ⟨hcfg : u.cfg = Config.hw, -, -⟩ := hfalse.sameInputs
  have huinv := hfalse.inv hinv
  obtain ⟨v, hrest, hvst⟩ := runsTo_noise (swallowedFrame.bytes.drop 11) huinv (by simp [hidle])
    (by rw [bufBytes_idle huinv hidle, hcfg]; decide)
  obtain ⟨hvcfg, -, -⟩ := hrest.sameInputs
  rw [hcfg] at hvcfg
  obtain ⟨t, hlater, -⟩ := runsTo_frame (F := laterFrame) (hrest.inv huinv) hvst (by rw [hvcfg]; decide)
    (.inl (by rw [hvcfg]; rfl)) (by rw [hvcfg]; exact ⟨rfl, rfl⟩)
  exact ⟨t, (hfalse.append hrest).append hlater⟩

/-- The false frame does not pass the checksum, so it causes no command (R174). -/
theorem frameCommands_falseFrame : frameCommands Config.hw falseFrame = [] :=
  frameCommands_of_not_valid (by decide)

/-- Refutes O57: in program P4 frame A is Valid, but the only command is frame B's Left; A's Forward never appears. -/
theorem not_everyEmbeddedFrameIsObeyed : ¬ Obligations.EveryEmbeddedFrameIsObeyed := by
  intro h
  obtain ⟨t, hrun⟩ := runsTo_falseSync
  have hobeyed := h falseSync laterFrame.bytes swallowedFrame t (validate_frameFor _ _) hrun.run
  have hforward : frameCommands Config.hw swallowedFrame = [.forward 3000 3000] := by decide
  have hcmds : t.cmds = [.left 3000 3000] := by
    have hleft : frameCommands Config.hw laterFrame = [.left 3000 3000] := by decide
    obtain ⟨hcommands, -⟩ := hrun.traces
    simpa [State.reset, frameCommands_falseFrame, hleft] using hcommands
  rw [hforward, hcmds] at hobeyed
  exact absurd hobeyed (by decide)

end Sys2Proof.Machine
end
